-- ==== Sys2Proof/Word.lean ====
section
/-! DEFINITION. Bit sequences and their plainest operations (00_scope.md, rules R9 to R12). -/

namespace Sys2Proof

/-- R9: an ordered sequence of bits; index 0 is the leading bit (R10); the length is part of its identity. -/
abbrev BitSeq := List Bool

namespace BitSeq

/-- R11: the sequence of `n` zero bits. -/
def zeros (n : Nat) : BitSeq := List.replicate n false

/-- R11, R12: bit by bit XOR; the rules use it on sequences of one length. -/
def xor (s t : BitSeq) : BitSeq := List.zipWith Bool.xor s t

/-- R11: every bit is 0; true of the empty sequence. -/
def allZero (s : BitSeq) : Bool := s.all (fun b => !b)

end BitSeq

end Sys2Proof
end

