-- ==== Sys2Proof/Syntax.lean ====
section
/-! DEFINITION. The four operations, the request and the response (10_state.md R20; 30_encoding.md R70 to R74). -/

namespace Sys2Proof

/-- R20, R71: the four operations. -/
inductive Op where
  | rem
  | gen
  | enc
  | ver
  deriving DecidableEq, Repr

/-- R20: a request, one constructor per row of the opcode table.
`a` is the dividend-side operand and `p` the divisor-side one (R15). -/
inductive Instr where
  /-- R95, unit modulo2_divider: dividend `a`, divisor `p`. -/
  | rem (a p : BitSeq)
  /-- R110, unit crc_remainder_gen: message `a`, polynomial `p`. -/
  | gen (a p : BitSeq)
  /-- R120, unit crc_encoder: message `a`, polynomial `p`. -/
  | enc (a p : BitSeq)
  /-- R130, unit crc_verifier: received sequence `a`, polynomial `p`. -/
  | ver (a p : BitSeq)
  deriving DecidableEq, Repr

namespace Instr

/-- The operation of a request. -/
def op : Instr → Op
  | .rem _ _ => .rem
  | .gen _ _ => .gen
  | .enc _ _ => .enc
  | .ver _ _ => .ver

/-- Operand `a` of a request (R15). -/
def a : Instr → BitSeq
  | .rem a _ => a
  | .gen a _ => a
  | .enc a _ => a
  | .ver a _ => a

/-- Operand `p` of a request (R15). -/
def p : Instr → BitSeq
  | .rem _ p => p
  | .gen _ p => p
  | .enc _ p => p
  | .ver _ p => p

/-- The request `(op, a, p)` of R20. -/
def ofParts : Op → BitSeq → BitSeq → Instr
  | .rem, a, p => .rem a p
  | .gen, a, p => .gen a p
  | .enc, a, p => .enc a p
  | .ver, a, p => .ver a p

end Instr

/-- R78: the document's function-call spellings, each another name of an operation. -/
abbrev Call.remainder (dividend divisor : BitSeq) : Instr := .rem dividend divisor
abbrev Call.encode (message polynomial : BitSeq) : Instr := .enc message polynomial
abbrev Call.verify (received polynomial : BitSeq) : Instr := .ver received polynomial

/-- R70: format REQ, the levels of the request ports `req_op`, `req_alen`, `req_a`, `req_plen`, `req_p`.
`a` and `p` list the levels from index 0 up; an index not listed is driven 0
(DESIGN CHOICE, log 3: every drive of finitely many bits can be written so). -/
structure ReqPorts where
  op   : BitVec 2
  alen : Nat
  a    : BitSeq
  plen : Nat
  p    : BitSeq
  deriving DecidableEq, Repr

/-- R20, R180: the faults a request can be answered with. -/
inductive ReqFault where
  /-- R181. -/
  | invalidInputLength
  /-- R182. -/
  | capacityExceeded
  deriving DecidableEq, Repr

/-- R20: a response is exactly one of four variants. -/
inductive Response where
  | rspErr (e : ReqFault)
  | rspRem (r : BitSeq)
  | rspEnc (r cw : BitSeq)
  | rspVer (ok : Bool)
  deriving DecidableEq, Repr

/-- R29, R73: format RSP, the response ports while `rsp_valid = 1`: the live bits and their lengths. -/
structure RspPorts where
  err   : BitVec 2
  ok    : Bool
  r     : BitSeq
  rlen  : Nat
  cw    : BitSeq
  cwlen : Nat
  deriving DecidableEq, Repr, Inhabited

end Sys2Proof
end

