-- ==== Sys2Proof/Config.lean ====
section
/-! DEFINITION. What an implementation fixes (00_scope.md R7, R8) and the free values (93_implementation_defined.md U11, U12;
the operand bits a port has no pin for, 10_state.md R30). -/

namespace Sys2Proof.Config

/-- R8: a capacity parameter is a natural number or unbounded. -/
inductive Capacity where
  | unbounded
  | bits (n : Nat)
  deriving DecidableEq, Repr

/-- R182: a length that does not fit the capacity. -/
def Capacity.exceededBy : Capacity → Nat → Bool
  | .unbounded, _ => false
  | .bits m, n => decide (m < n)

/-- R30: a port as wide as the capacity has a pin for index `i`. -/
def Capacity.hasPin (c : Capacity) (i : Nat) : Bool := !c.exceededBy (i + 1)

/-- The order of R8's constraint `MAXN >= MAXK`: nothing is larger than unbounded. -/
def Capacity.atLeast : Capacity → Capacity → Bool
  | .unbounded, _ => true
  | .bits _, .unbounded => false
  | .bits m, .bits n => decide (n ≤ m)

/-- R7, R226: how many step rules an implementation performs at a time.
DESIGN CHOICE (log 2): the two the spec names. -/
inductive Stepping where
  /-- One step rule a step: the reference machine of R143 to R146. -/
  | bitSerial
  /-- SUBMIT, all ADVANCEs and FINISH as one step. -/
  | combinational
  deriving DecidableEq, Repr

/-- R8: the parameters the model takes as an argument. -/
structure Params where
  maxN     : Capacity
  maxK     : Capacity
  stepping : Stepping
  deriving DecidableEq, Repr

/-- R8: `unbounded` is the default. DESIGN CHOICE (log 2): the spec's reference machine. -/
def Params.default : Params :=
  { maxN := .unbounded, maxK := .unbounded, stepping := .bitSerial }

/-- U11, R34: what the response ports show while `rsp_valid = 0`: any value (log 5). -/
opaque rspPortsWhileInvalid : Nat → RspPorts

/-- U12, R30: what `rsp_r` shows at an index of `rsp_rlen` or more, and everywhere while
`rsp_valid = 0`: any value (log 5). -/
opaque rspRPinBeyond : Nat → Nat → Bool

/-- U12, R30: the same for `rsp_cw` (log 5). -/
opaque rspCwPinBeyond : Nat → Nat → Bool

/-- R30: bit `i` of an operand `a` that is longer than `req_a` is wide. The spec gives such a bit no pin and no value:
any value, drawn anew at each step (log 16). -/
opaque reqAWithoutPin : Nat → Nat → Bool

/-- R30: the same for `req_p` (log 16). -/
opaque reqPWithoutPin : Nat → Nat → Bool

end Sys2Proof.Config
end

