-- ==== Sys2Proof/WellFormed.lean ====
section
/-! DEFINITION. The checks on terms. EVERY `Instr` is well formed: all four codes are assigned (30_encoding.md R75),
and the host may "present any request whatever" (44_sequencer.md R153); a request of a wrong length is a request
that is answered with a fault. What has a form to keep is the parameters and the port image of a request. -/

namespace Sys2Proof

/-- R8: `MAXK >= 2` and `MAXN >= MAXK`. -/
def Config.Params.wf (c : Config.Params) : Bool :=
  c.maxK.atLeast (.bits 2) && c.maxN.atLeast c.maxK

/-- The port image lists exactly the live bits of each operand, so that one request has one image:
R72 ignores every bit at an index `>= alen` or `>= plen`. -/
def ReqPorts.canonical (q : ReqPorts) : Bool :=
  decide (q.a.length = q.alen) && decide (q.p.length = q.plen)

end Sys2Proof
end

