-- ==== Sys2Proof/Decode.lean ====
section
/-! DEFINITION. The decoder of a request from the request ports, and after it the encoder (30_encoding.md R70 to R75).
The decoder refuses nothing: R75, "every bit pattern on `req_op` decodes to an operation and a decoder is total". -/

namespace Sys2Proof

/-- R71: the operation a code selects. -/
def opOfCode (c : BitVec 2) : Op :=
  if c = 0b00#2 then .rem
  else if c = 0b01#2 then .gen
  else if c = 0b10#2 then .enc
  else .ver

/-- R72: an operand is the port's bits `0` to `len - 1`, in that order; a bit at an index `>= len` is ignored. -/
def assemble (port : BitSeq) (len : Nat) : BitSeq :=
  (List.range len).map (fun i => port.getD i false)

/-- R70 to R72: the request on the ports. -/
def decode (q : ReqPorts) : Instr :=
  Instr.ofParts (opOfCode q.op) (assemble q.a q.alen) (assemble q.p q.plen)

/-- The ports with the opcode table's word `w` on them. The table gives a request its 2 bits of `req_op`
(mask 0x3: no other bit of a wider word is the request's), and the operand fields are all zero: both lengths are 0. -/
def portsOfTableWord (w : Nat) : ReqPorts :=
  { op := BitVec.ofNat 2 w, alen := 0, a := [], plen := 0, p := [] }

/-- The request the decoder reads from a table word; a word of fewer than 2 bits holds no `req_op`. -/
def decodeTableWord (nbits w : Nat) : Option Instr :=
  if nbits < 2 then none else some (decode (portsOfTableWord w))

/-- R71: the code of an operation. -/
def codeOfOp : Op → BitVec 2
  | .rem => 0b00#2
  | .gen => 0b01#2
  | .enc => 0b10#2
  | .ver => 0b11#2

/-- R70: the port image of a request, each operand under its true length. -/
def encode (i : Instr) : ReqPorts :=
  { op := codeOfOp i.op, alen := i.a.length, a := i.a, plen := i.p.length, p := i.p }

end Sys2Proof
end

