-- ==== Sys2Proof/Machine/State.lean ====
section
/-! DEFINITION. The registers of the block (10_state.md R21 to R29), the host beside it, and the state after reset (R36). -/

namespace Sys2Proof.Machine

/-- R21. -/
inductive Phase where
  | idle
  | run
  | done
  deriving DecidableEq, Repr

/-- R30: the levels the host drives on the input ports during one step. -/
structure Drive where
  rst      : Bool
  reqValid : Bool
  req      : ReqPorts
  rspReady : Bool
  deriving DecidableEq, Repr

/-- All input ports low: nothing is asked of the block. -/
def Drive.low : Drive :=
  { rst := false, reqValid := false,
    req := { op := 0b00#2, alen := 0, a := [], plen := 0, p := [] }, rspReady := false }

/-- Why the machine stops. Both are raised by a block step in `RUN` only, in states that no run reaches
(`Safety.Inv` rules them out), where the registers meet the precondition of no step rule (R14: "when `c` is
false the function is not applied"). Both are safe: the machine stops where the spec describes no step. -/
inductive Fault where
  /-- In `RUN` the window, the operands and their lengths do not agree (R23 to R25). -/
  | windowMalformed
  /-- In `RUN`, `POS > N`: neither ADVANCE nor FINISH is enabled (R26). -/
  | positionPastEnd
  deriving DecidableEq, Repr

/-- An instruction without a meaning; raised by no arm of `exec`. Safe: nothing is claimed of it. -/
inductive Refusal where
  | notModelled (mnemonic : String)
  deriving DecidableEq, Repr

/-- The machine: parameters, the block's registers, the host's side and the counter of the free values. -/
structure State where
  /-- R8: `MAXN`, `MAXK` and the granularity of steps; no step changes them (log 1, log 2). -/
  params : Config.Params
  /-- R21, `PHASE`. -/
  phase : Phase
  /-- R22, `OP`. -/
  op : BitVec 2
  /-- R23, `A`. -/
  a : BitSeq
  /-- R23, `ALEN`. -/
  alen : Nat
  /-- R24, `P`. -/
  p : BitSeq
  /-- R24, `PLEN`; `K` of R27. -/
  plen : Nat
  /-- R25, `W`. -/
  w : BitSeq
  /-- R26, `POS`. -/
  pos : Nat
  /-- R29, `ERR`. -/
  err : BitVec 2
  /-- R29, `OK`. -/
  ok : Bool
  /-- R29, `R`. -/
  r : BitSeq
  /-- R29, `RLEN`. -/
  rlen : Nat
  /-- R29, `CW`. -/
  cw : BitSeq
  /-- R29, `CWLEN`. -/
  cwlen : Nat
  /-- What the host drives from now on, one entry a step (log 3). -/
  script : List Drive
  /-- The responses COLLECT has delivered, oldest first; `none` stands for the reserved code (log 3, log 9). -/
  delivered : List (Option Response)
  /-- The index of the next free value (log 5). -/
  free : Nat
  deriving DecidableEq, Repr

/-- R36, R212: `PHASE` is `IDLE`. The spec leaves every other register unspecified;
DESIGN CHOICE (log 4): zero, and the empty sequence. -/
def State.reset : State :=
  { params := Config.Params.default
    phase := .idle
    op := 0b00#2
    a := []
    alen := 0
    p := []
    plen := 0
    w := []
    pos := 0
    err := 0b00#2
    ok := false
    r := []
    rlen := 0
    cw := []
    cwlen := 0
    script := []
    delivered := []
    free := 0 }

end Sys2Proof.Machine
end

