-- ==== Sys2Proof/Machine/Flags.lean ====
section
/-! DEFINITION. The flags `LEAD` and `OK` and the code in `ERR` (10_state.md R28, R29; 30_encoding.md R73). -/

namespace Sys2Proof.Machine

/-- R28, R90: the window's leading bit, `W[0]`. The spec defines it in `RUN` only, where the window has a bit, and leaves
it unspecified after reset (R36). DESIGN CHOICE (log 4): 0 for the empty window, hence after reset; no step reads it there. -/
def leadOf (w : BitSeq) : Bool := w.headD false

/-- R28, `LEAD`: a wire, not a register. Outside `RUN` its value is the model's choice (log 4). -/
def State.lead (s : State) : Bool := leadOf s.w

/-- R130: the value VER gives `OK`. -/
def verdict (r : BitSeq) : Bool := r.allZero

/-- R73: the code of a fault. -/
def faultCode : ReqFault → BitVec 2
  | .invalidInputLength => 0b01#2
  | .capacityExceeded => 0b10#2

/-- R73: no fault. -/
def noFault : BitVec 2 := 0b00#2

end Sys2Proof.Machine
end

