-- ==== Sys2Proof/Machine/Operands.lean ====
section
/-! DEFINITION. The one operand form, the dividend view (20_memory.md R52), and the spaces with their bounds (R14, R50). -/

namespace Sys2Proof.Machine

/-- R52: the dividend view of a request. The padding is a view; nothing is stored (R32). -/
def view : Op → BitSeq → BitSeq → BitSeq
  | .rem, a, _ => a
  | .gen, a, p => a ++ BitSeq.zeros (p.length - 1)
  | .enc, a, p => a ++ BitSeq.zeros (p.length - 1)
  | .ver, a, _ => a

/-- R27, R142: the length `N` of the dividend view. -/
def viewLen : Op → Nat → Nat → Nat
  | .rem, alen, _ => alen
  | .gen, alen, plen => alen + plen - 1
  | .enc, alen, plen => alen + plen - 1
  | .ver, alen, _ => alen

namespace State

/-- R27: `N` of the latched request. -/
def viewLen (s : State) : Nat := Machine.viewLen (opOfCode s.op) s.alen s.plen

/-- R52, `Dbit(i)`: bit `i` of the dividend view of the latched request, the padding computed. -/
def dbit (s : State) (i : Nat) : Bool := if i < s.alen then s.a.getD i false else false

/-- The latched request (R22 to R24). -/
def latched (s : State) : Instr := Instr.ofParts (opOfCode s.op) s.a s.p

end State

/-- R50: the five storage spaces. -/
inductive Space where
  | a
  | p
  | w
  | r
  | cw
  deriving DecidableEq, Repr

/-- R50: the register that is the space. -/
def State.space (s : State) : Space → BitSeq
  | .a => s.a
  | .p => s.p
  | .w => s.w
  | .r => s.r
  | .cw => s.cw

/-- R50: the live length of a space. -/
def State.liveLen (s : State) : Space → Nat
  | .a => s.alen
  | .p => s.plen
  | .w => s.plen
  | .r => s.rlen
  | .cw => s.cwlen

/-- R14, `MemRead(space, i, n)`: the `n` bits from index `i`; no value outside the live length (R54). -/
def State.memRead (s : State) (sp : Space) (i n : Nat) : Option BitSeq :=
  if i + n ≤ s.liveLen sp then some (((s.space sp).drop i).take n) else none

end Sys2Proof.Machine
end

