-- ==== Sys2Proof/Machine/Response.lean ====
section
/-! DEFINITION. The response register flattened and read back (10_state.md R29), the request through the pins of the ports (R30),
and the output ports (R30, R34, R151). -/

namespace Sys2Proof.Machine

/-- R29: the fields of the response register for a response. -/
def flatten : Response → RspPorts
  | .rspErr e => { err := faultCode e, ok := false, r := [], rlen := 0, cw := [], cwlen := 0 }
  | .rspRem r => { err := noFault, ok := false, r := r, rlen := r.length, cw := [], cwlen := 0 }
  | .rspEnc r cw => { err := noFault, ok := false, r := r, rlen := r.length, cw := cw, cwlen := cw.length }
  | .rspVer ok => { err := noFault, ok := ok, r := [], rlen := 0, cw := [], cwlen := 0 }

/-- R29, R146: the response the fields stand for, given the operation. The reserved code 3 (R73) stands for none (log 9). -/
def unflatten (op : Op) (q : RspPorts) : Option Response :=
  if q.err = noFault then
    match op with
    | .rem => some (.rspRem q.r)
    | .gen => some (.rspRem q.r)
    | .enc => some (.rspEnc q.r q.cw)
    | .ver => some (.rspVer q.ok)
  else if q.err = faultCode .invalidInputLength then some (.rspErr .invalidInputLength)
  else if q.err = faultCode .capacityExceeded then some (.rspErr .capacityExceeded)
  else none

/-- R30: the first `len` bits of an operand as a port of `cap` pins brings them: the level of the pin where there is one. -/
def throughPort (cap : Config.Capacity) (noPin : Nat → Bool) (port : BitSeq) (len : Nat) : BitSeq :=
  (List.range len).map (fun i => if cap.hasPin i then port.getD i false else noPin i)

/-- R30: `req_a` has `MAXN` pins and `req_p` has `MAXK`; an operand bit without a pin is a free value (log 16). -/
def throughPins (c : Config.Params) (free : Nat) (q : ReqPorts) : ReqPorts :=
  { q with
    a := throughPort c.maxN (Config.reqAWithoutPin free) q.a q.alen
    p := throughPort c.maxK (Config.reqPWithoutPin free) q.p q.plen }

namespace State

/-- R29: the live contents of the response register. -/
def rspRegister (s : State) : RspPorts :=
  { err := s.err, ok := s.ok, r := s.r.take s.rlen, rlen := s.rlen, cw := s.cw.take s.cwlen, cwlen := s.cwlen }

/-- R146: what COLLECT delivers. -/
def response (s : State) : Option Response := unflatten (opOfCode s.op) s.rspRegister

/-- What the host drives during the next step: the head of the script, all low when it is empty (log 3). -/
def drive (s : State) : Drive := s.script.headD Drive.low

/-- R30, `rsp_valid`: 1 exactly when `PHASE = DONE`. -/
def rspValid (s : State) : Bool := decide (s.phase = .done)

/-- R30: the request that the request ports bring to the block in the next step, each through the pins the port has. -/
def request (s : State) : Instr := decode (throughPins s.params s.free s.drive.req)

/-- R30, R36, R151, `req_ready`: 1 exactly when `PHASE = IDLE`. While `rst = 1` no request is taken all the same (R210; log 10). -/
def reqReady (s : State) : Bool := decide (s.phase = .idle)

/-- R34, R151: the `rsp_*` ports; any value while `rsp_valid = 0` (U11; log 5). -/
def rspPorts (s : State) : RspPorts :=
  if s.rspValid then s.rspRegister else Config.rspPortsWhileInvalid s.free

/-- R30, R34: pin `i` of `rsp_r`, of the `MAXK - 1` pins the port has; any value at and beyond `rsp_rlen`, and while
`rsp_valid = 0` (U11, U12; log 5). -/
def rspRPin (s : State) (i : Nat) : Option Bool :=
  if s.params.maxK.hasPin (i + 1) then
    some (if s.rspValid ∧ i < s.rlen then s.r.getD i false else Config.rspRPinBeyond s.free i)
  else none

/-- R30, R34: pin `i` of `rsp_cw`, of the `MAXN` pins the port has; any value likewise. -/
def rspCwPin (s : State) (i : Nat) : Option Bool :=
  if s.params.maxN.hasPin i then
    some (if s.rspValid ∧ i < s.cwlen then s.cw.getD i false else Config.rspCwPinBeyond s.free i)
  else none

end State

end Sys2Proof.Machine
end

