-- ==== Sys2Proof/Machine/Ops.lean ====
section
/-! DEFINITION. The moves of the window and the division (40_modulo2_divider.md R90 to R94), and the shared operations
over the registers: the latch, taking a fault (60_exceptions.md R187), the return from it (R188, R146) and RESET (R210). -/

namespace Sys2Proof.Machine

/-- R90: XOR the divisor into the window when the window's leading bit is 1, an all-zero pattern otherwise. -/
def condxor (w v : BitSeq) : BitSeq :=
  if leadOf w then BitSeq.xor w v else BitSeq.xor w (BitSeq.zeros w.length)

/-- R93: the formulation that skips the XOR with zeros. -/
def condxorSkip (w v : BitSeq) : BitSeq :=
  if leadOf w then BitSeq.xor w v else w

/-- R91: drop the leading bit and append `b` at the tail. -/
def shiftin (w : BitSeq) (b : Bool) : BitSeq := w.drop 1 ++ [b]

/-- R92, step 2: one conditional XOR and one shift-in for each remaining bit, in order. -/
def slide (v : BitSeq) (w : BitSeq) : BitSeq → BitSeq
  | [] => w
  | b :: rest => slide v (shiftin (condxor w v) b) rest

/-- R92, steps 1 and 2 after `j` rounds of the loop: the window when `j` bits have been taken in. -/
def windowAfter (d v : BitSeq) (j : Nat) : BitSeq :=
  slide v (d.take v.length) ((d.drop v.length).take j)

/-- R92, steps 1 to 3: the window after the final conditional XOR. -/
def finalWindow (d v : BitSeq) : BitSeq :=
  condxor (slide v (d.take v.length) (d.drop v.length)) v

/-- R92: the remainder of the dividend `d` by the divisor `v`; used where `len(v) >= 1` and `len(d) >= len(v)`. -/
def mod2rem (d v : BitSeq) : BitSeq := (finalWindow d v).drop 1

/-- R93: the loop of R92 with the skip formulation. -/
def slideSkip (v : BitSeq) (w : BitSeq) : BitSeq → BitSeq
  | [] => w
  | b :: rest => slideSkip v (shiftin (condxorSkip w v) b) rest

/-- R93: the division with the skip formulation. -/
def mod2remSkip (d v : BitSeq) : BitSeq :=
  (condxorSkip (slideSkip v (d.take v.length) (d.drop v.length)) v).drop 1

/-- R94: round `j` of the uniform form, a conditional XOR and, except in the last round, a shift-in. -/
def uniformRound (d v : BitSeq) (w : BitSeq) (j : Nat) : BitSeq :=
  if j < d.length - v.length then shiftin (condxor w v) (d.getD (v.length + j) false) else condxor w v

/-- R94: the division in the uniform form, `j = 0` to `n - k`. -/
def mod2remUniform (d v : BitSeq) : BitSeq :=
  ((List.range (d.length - v.length + 1)).foldl (uniformRound d v) (d.take v.length)).drop 1

/-- R94, R167: the leading bits tested by the conditional XORs, in order. -/
def leadBits (v : BitSeq) (w : BitSeq) : BitSeq → BitSeq
  | [] => [leadOf w]
  | b :: rest => leadOf w :: leadBits v (shiftin (condxor w v) b) rest

/-- R94, R167: the leading bits tested while `d` is divided by `v`. -/
def testedBits (d v : BitSeq) : BitSeq := leadBits v (d.take v.length) (d.drop v.length)

/-- R142, R182: a dividend view of `n` bits or a divisor of `k` bits does not fit the storage. -/
def exceedsCapacity (c : Config.Params) (n k : Nat) : Bool := c.maxN.exceededBy n || c.maxK.exceededBy k

namespace State

/-- R143, first line: SUBMIT latches the whole request (R55). -/
def latch (s : State) (op : Op) (a p : BitSeq) : State :=
  { s with op := codeOfOp op, a := a, alen := a.length, p := p, plen := p.length }

/-- R187: fault entry, the one operation that raises a fault. Nothing is saved and no handler runs. -/
def takeFault (s : State) (e : ReqFault) : State :=
  { s with err := faultCode e, ok := false, rlen := 0, cwlen := 0, phase := .done }

/-- R146, R188: COLLECT delivers the response, an error response like any other, and returns the block to `IDLE`. -/
def collect (s : State) : State :=
  { s with delivered := s.delivered ++ [s.response], phase := .idle }

/-- R210: RESET gives every register of the block its value after reset; the parameters and the host's side are not the block's. -/
def hardReset (s : State) : State :=
  { State.reset with params := s.params, script := s.script, delivered := s.delivered, free := s.free }

/-- R92 on the registers: the window and the position after the whole division, as FINISH leaves them. -/
def divide (s : State) (d v : BitSeq) : State := { s with w := finalWindow d v, pos := d.length }

/-- R145: the response is ready. -/
def toDone (s : State) : State := { s with phase := .done }

/-- R143, R216: a request is taken only in `IDLE`; otherwise nothing is latched and nothing faults. -/
def whenIdle (s t : State) : Host.Outcome State Fault Refusal :=
  if s.phase = .idle then .next t else .next s

/-- One step of time for the host's side: the drive is consumed and the free values are drawn anew (log 3, log 5). -/
def tick (s : State) : State := { s with script := s.script.tail, free := s.free + 1 }

end State

end Sys2Proof.Machine
end

