-- ==== Sys2Proof/Machine/Divider.lean ====
section
/-! DEFINITION. The unit modulo2_divider and the operation REM (40_modulo2_divider.md R95). -/

namespace Sys2Proof.Machine

/-- R145, case REM: the remainder is the response. -/
def storeRem (r : BitSeq) (s : State) : State :=
  { s with err := noFault, r := r, rlen := s.plen - 1, cwlen := 0, ok := false }

/-- R95: the whole transaction of REM, from the latch to the response. -/
def execRem (a p : BitSeq) (s : State) : Host.Outcome State Fault Refusal :=
  let l := s.latch .rem a p
  s.whenIdle <|
    if p.length < 1 then l.takeFault .invalidInputLength
    else if a.length < p.length then l.takeFault .invalidInputLength
    else if exceedsCapacity s.params a.length p.length then l.takeFault .capacityExceeded
    else (storeRem (mod2rem a p) (l.divide a p)).toDone

end Sys2Proof.Machine
end

