-- ==== Sys2Proof/Machine/RemainderGen.lean ====
section
/-! DEFINITION. The unit crc_remainder_gen and the operation GEN (41_crc_remainder_gen.md R110). -/

namespace Sys2Proof.Machine

/-- R110, R111: the padded message. -/
def padded (a p : BitSeq) : BitSeq := a ++ BitSeq.zeros (p.length - 1)

/-- R145, case GEN: the remainder is the response. -/
def storeGen (r : BitSeq) (s : State) : State :=
  { s with err := noFault, r := r, rlen := s.plen - 1, cwlen := 0, ok := false }

/-- R110: the whole transaction of GEN, from the latch to the response. -/
def execGen (a p : BitSeq) (s : State) : Host.Outcome State Fault Refusal :=
  let l := s.latch .gen a p
  s.whenIdle <|
    if p.length < 2 then l.takeFault .invalidInputLength
    else if (padded a p).length < p.length then l.takeFault .invalidInputLength
    else if exceedsCapacity s.params (padded a p).length p.length then l.takeFault .capacityExceeded
    else (storeGen (mod2rem (padded a p) p) (l.divide (padded a p) p)).toDone

end Sys2Proof.Machine
end

