-- ==== Sys2Proof/Machine/Encoder.lean ====
section
/-! DEFINITION. The unit crc_encoder and the operation ENC (42_crc_encoder.md R120, R121). -/

namespace Sys2Proof.Machine

/-- R145, case ENC: the remainder and the codeword `A ++ r` are the response. -/
def storeEnc (r : BitSeq) (s : State) : State :=
  { s with err := noFault, r := r, rlen := s.plen - 1, cw := s.a ++ r, cwlen := s.alen + s.plen - 1, ok := false }

/-- R120: the whole transaction of ENC, from the latch to the response. -/
def execEnc (a p : BitSeq) (s : State) : Host.Outcome State Fault Refusal :=
  let l := s.latch .enc a p
  s.whenIdle <|
    if p.length < 2 then l.takeFault .invalidInputLength
    else if (padded a p).length < p.length then l.takeFault .invalidInputLength
    else if exceedsCapacity s.params (padded a p).length p.length then l.takeFault .capacityExceeded
    else (storeEnc (mod2rem (padded a p) p) (l.divide (padded a p) p)).toDone

end Sys2Proof.Machine
end

