-- ==== Sys2Proof/Machine/Verifier.lean ====
section
/-! DEFINITION. The unit crc_verifier and the operation VER (43_crc_verifier.md R130). -/

namespace Sys2Proof.Machine

/-- R145, case VER: the Boolean is the response; the remainder is not output (R134). -/
def storeVer (r : BitSeq) (s : State) : State :=
  { s with err := noFault, rlen := 0, cwlen := 0, ok := verdict r }

/-- R130: the whole transaction of VER, from the latch to the response. -/
def execVer (a p : BitSeq) (s : State) : Host.Outcome State Fault Refusal :=
  let l := s.latch .ver a p
  s.whenIdle <|
    if p.length < 2 then l.takeFault .invalidInputLength
    else if a.length < p.length then l.takeFault .invalidInputLength
    else if exceedsCapacity s.params a.length p.length then l.takeFault .capacityExceeded
    else (storeVer (mod2rem a p) (l.divide a p)).toDone

end Sys2Proof.Machine
end

