-- ==== Sys2Proof/Machine/Dispatch.lean ====
section
/-! DEFINITION. The meaning of a request: one arm per operation. -/

namespace Sys2Proof.Machine

-- R141: a whole transaction, as the four operation rules define it.
def exec (i : Instr) (s : State) : Host.Outcome State Fault Refusal :=
  match i with
  | .rem a p => Sys2Proof.Machine.execRem a p s
  | .gen a p => Sys2Proof.Machine.execGen a p s
  | .enc a p => Sys2Proof.Machine.execEnc a p s
  | .ver a p => Sys2Proof.Machine.execVer a p s

end Sys2Proof.Machine
end

