-- ==== Sys2Proof/Machine/Sequencer.lean ====
section
/-! DEFINITION. The transaction function (44_sequencer.md R141, R142) and the step rules of the reference machine
(R143 to R145) over the registers. -/

namespace Sys2Proof.Machine

/-- R142: the shortest divisor an operation takes. -/
def kmin : Op → Nat
  | .rem => 1
  | .gen => 2
  | .enc => 2
  | .ver => 2

/-- R142: the validation made before any division, from the operation and the two lengths alone (R185). -/
def check (c : Config.Params) (op : Op) (alen plen : Nat) : Option ReqFault :=
  if plen < kmin op then some .invalidInputLength
  else if viewLen op alen plen < plen then some .invalidInputLength
  else if exceedsCapacity c (viewLen op alen plen) plen then some .capacityExceeded
  else none

/-- R142 on a request. -/
def checkInstr (c : Config.Params) (i : Instr) : Option ReqFault := check c i.op i.a.length i.p.length

/-- R141: the result of a request that passed the check. -/
def result : Instr → Response
  | .rem a p => .rspRem (mod2rem a p)
  | .gen a p => .rspRem (mod2rem (a ++ BitSeq.zeros (p.length - 1)) p)
  | .enc a p =>
    let r := mod2rem (a ++ BitSeq.zeros (p.length - 1)) p
    .rspEnc r (a ++ r)
  | .ver a p => .rspVer (mod2rem a p).allZero

/-- R141: the transaction function, the spec's `exec`. -/
def transact (c : Config.Params) (i : Instr) : Response :=
  match checkInstr c i with
  | some e => .rspErr e
  | none => result i

/-- R143: SUBMIT. -/
def submit (i : Instr) (s : State) : State :=
  let l := s.latch i.op i.a i.p
  match checkInstr s.params i with
  | some e => l.takeFault e
  | none => { l with w := (view i.op i.a i.p).take i.p.length, pos := i.p.length, phase := .run }

/-- R144: ADVANCE. -/
def advance (s : State) : State :=
  { s with w := shiftin (condxor s.w s.p) (s.dbit s.pos), pos := s.pos + 1 }

/-- R145: the case of `OP` in FINISH. -/
def storeResult (r : BitSeq) (s : State) : State :=
  match opOfCode s.op with
  | .rem => storeRem r s
  | .gen => storeGen r s
  | .enc => storeEnc r s
  | .ver => storeVer r s

/-- R145: FINISH. -/
def finish (s : State) : State :=
  let w' := condxor s.w s.p
  (storeResult (w'.drop 1) { s with w := w' }).toDone

/-- R23 to R25: in `RUN` the operands have their live lengths and the window has the divisor's, at least 1. -/
def windowReady (s : State) : Bool :=
  decide (s.a.length = s.alen) && decide (s.p.length = s.plen) && decide (s.w.length = s.plen) && decide (1 ≤ s.plen)

/-- R144, R145: the one block step that is enabled in `RUN` (R148); a fault where none is (log 6). -/
def blockStep (s : State) : Host.Outcome State Fault Refusal :=
  if windowReady s then
    if s.pos < s.viewLen then .next (advance s)
    else if s.pos = s.viewLen then .next (finish s)
    else .fault .positionPastEnd
  else .fault .windowMalformed

/-- R148: how many steps the block makes after SUBMIT: `N - K` ADVANCEs and one FINISH, or none on a fault. -/
def blockSteps (c : Config.Params) (i : Instr) : Nat :=
  match checkInstr c i with
  | some _ => 0
  | none => (view i.op i.a i.p).length - i.p.length + 1

end Sys2Proof.Machine
end

