-- ==== Sys2Proof/Machine/Step.lean ====
section
/-! DEFINITION. One step of the machine: RESET, SUBMIT, a block step, COLLECT, or a wait (00_scope.md R7; 44_sequencer.md R147). -/

namespace Sys2Proof.Machine

/-- The request on the ports, taken in `IDLE`. The bit-serial machine SUBMITs it (R143); the combinational one performs
SUBMIT, all ADVANCEs and FINISH as one step (R226), which is `exec` (log 2). -/
def takeRequest (i : Instr) (s : State) : Host.Outcome State Fault Refusal :=
  match s.params.stepping with
  | .bitSerial => .next (submit i s)
  | .combinational => exec i s

/-- One step under the levels the host drives, which bring the request `i`. While `rst = 1` no other rule is enabled (R210). A request is seen in
`IDLE` only (R216), `rsp_ready` in `DONE` only (R146); a phase with nothing to do waits (R150). -/
def stepUnder (d : Drive) (i : Instr) (s : State) : Host.Outcome State Fault Refusal :=
  if d.rst then .next s.hardReset
  else
    match s.phase with
    | .idle => if d.reqValid then takeRequest i s else .next s
    | .run => blockStep s
    | .done => if d.rspReady then .next s.collect else .next s

/-- One step of the machine. -/
def step (s : State) : Host.Outcome State Fault Refusal := stepUnder s.drive s.request s.tick

/-- The host presents a request during the next step: `req_valid = 1`, `rst = 0`. -/
def State.present (s : State) (q : ReqPorts) : State :=
  { s with script := { rst := false, reqValid := true, req := q, rspReady := false } :: s.script }

/-- The state in which the next step runs the table word `w`: the block is `IDLE`, so that it can take a request, and
the host presents the word with the operand fields all zero (log 7). -/
def State.withFetchWord (s : State) (_nbits w : Nat) : State :=
  { s with phase := .idle }.present (portsOfTableWord w)

end Sys2Proof.Machine
end

