-- ==== Sys2Proof/Safety.lean ====
section
/-! DEFINITION. The terms of the claims: the invariant of the machine (10_state.md R25, R26; 44_sequencer.md R148, R151)
and the product of bit sequences as polynomials (49_laws.md R167). -/

namespace Sys2Proof.Safety

open Sys2Proof.Machine

/-- In `RUN` (R26, R148, R185): the latched request passed the check, `K <= POS <= N`, and the window is the one of
`mod2rem` after `POS - K` rounds of its loop. -/
def RunInv (s : State) : Prop :=
  s.a.length = s.alen ∧ s.p.length = s.plen ∧ check s.params (opOfCode s.op) s.alen s.plen = none ∧
    s.plen ≤ s.pos ∧ s.pos ≤ s.viewLen ∧
    s.w = windowAfter (view (opOfCode s.op) s.a s.p) s.p (s.pos - s.plen)

/-- In `DONE` (R151): the response register holds the flattened answer to the latched request. -/
def DoneInv (s : State) : Prop :=
  s.a.length = s.alen ∧ s.p.length = s.plen ∧ s.rspRegister = flatten (transact s.params s.latched)

/-- The invariant of every step. In `IDLE` it asks nothing of the registers: no state crosses a transaction (R31, R154). -/
def Inv (s : State) : Prop :=
  s.params.wf = true ∧ (s.phase = .run → RunInv s) ∧ (s.phase = .done → DoneInv s)

/-- The host drives no RESET during the next `n` steps: the premise of R153. -/
def NoReset (s : State) (n : Nat) : Prop := ∀ d ∈ s.script.take n, d.rst = false

/-- `n` steps later on the host's side, the registers as they are. -/
def later (n : Nat) (s : State) : State := { s with script := s.script.drop n, free := s.free + n }

/-- How many steps it takes from the step that takes the request to the one that makes the response valid:
R225's counts for the bit-serial machine, one step for the combinational one (R226). -/
def stepsToDone (c : Config.Params) (i : Instr) : Nat :=
  match c.stepping with
  | .bitSerial => 1 + blockSteps c i
  | .combinational => 1

/-- The host presents the request `i` in the next step (R153, SUBMIT; through the pins the ports have, R30). -/
def Presents (s : State) (i : Instr) : Prop :=
  s.drive.rst = false ∧ s.drive.reqValid = true ∧ s.request = i

/-- R181's table: the requests that raise InvalidInputLength. -/
def InvalidLength : Instr → Prop
  | .rem a p => p.length < 1 ∨ a.length < p.length
  | .gen a p => p.length < 2 ∨ a.length = 0
  | .enc a p => p.length < 2 ∨ a.length = 0
  | .ver a p => p.length < 2 ∨ a.length < p.length

/-- R182: the length `N` of a request's dividend view. -/
def requestLen : Instr → Nat
  | .rem a _ => a.length
  | .gen a p => a.length + p.length - 1
  | .enc a p => a.length + p.length - 1
  | .ver a _ => a.length

/-- R182: the request passes the tests of R181 and does not fit the storage. -/
def OverCapacity (c : Config.Params) (i : Instr) : Prop :=
  ¬ InvalidLength i ∧ (c.maxN.exceededBy (requestLen i) = true ∨ c.maxK.exceededBy i.p.length = true)

/-- A request that is answered with its result. -/
def Valid (c : Config.Params) (i : Instr) : Prop :=
  ¬ InvalidLength i ∧ c.maxN.exceededBy (requestLen i) = false ∧ c.maxK.exceededBy i.p.length = false

/-- R164: the sequence of length `n` with a single 1 at index `i`. -/
def oneHot (n i : Nat) : BitSeq := (List.range n).map (fun j => decide (j = i))

/-- R167: `q` as a polynomial times `v` as a polynomial, index 0 the highest power: each 1 bit of `q` adds a copy of
`v` shifted to its place. The product of sequences of lengths `m` and `k` has length `m + k - 1` for `m >= 1`. -/
def clmul (q v : BitSeq) : BitSeq :=
  match q with
  | [] => BitSeq.zeros (v.length - 1)
  | b :: rest =>
    BitSeq.xor ((if b then v else BitSeq.zeros v.length) ++ BitSeq.zeros rest.length) (false :: clmul rest v)

end Sys2Proof.Safety
end

