-- ==== Sys2Proof/Certificates/Slice0/Obligations.lean ====
section
/-! DEFINITION. The statements for the provers, each from a numbered rule of spec/ or derived from its sections. -/

open Sys2Proof Sys2Proof.Machine Sys2Proof.Safety

/-! ### Requests and their encoding -/

/-- R71: the four codes, on port images written out bit by bit and as table words. That a table word stands for its
operation with empty operands (the first four clauses) is the model's choice (log 7). -/
def Obligations.OperationCodesSelectTheFourOperations : Prop :=
  decodeTableWord 8 0b00 = some (.rem [] []) ∧ decodeTableWord 8 0b01 = some (.gen [] []) ∧
  decodeTableWord 8 0b10 = some (.enc [] []) ∧ decodeTableWord 8 0b11 = some (.ver [] []) ∧
  decode { op := 0b10#2, alen := 6, a := [true, false, false, true, false, false],
           plen := 4, p := [true, true, false, true] } =
    .enc [true, false, false, true, false, false] [true, true, false, true] ∧
  decode { op := 0b11#2, alen := 3, a := [true, true, false], plen := 4, p := [true, true, false, true] } =
    .ver [true, true, false] [true, true, false, true] ∧
  decode { op := 0b00#2, alen := 2, a := [false, true, true], plen := 1, p := [true, false] } =
    .rem [false, true] [true] ∧
  decode { op := 0b01#2, alen := 1, a := [true], plen := 2, p := [true, false] } = .gen [true] [true, false]

/-- R70 to R72: no bit of a request is lost between its ports and its decoding, whatever the ports carry beyond the lengths. -/
def Obligations.EncodedRequestDecodesToItself : Prop :=
  ∀ (i : Instr) (beyondA beyondP : BitSeq),
    decode (encode i) = i ∧
    decode { encode i with a := i.a ++ beyondA, p := i.p ++ beyondP } = i

/-- R72: the operands are the port bits below the lengths, in port order, and nothing else of the ports is read. -/
def Obligations.OperandsAreThePortBitsBelowTheirLengths : Prop :=
  ∀ q : ReqPorts,
    (decode q).a.length = q.alen ∧ (decode q).p.length = q.plen ∧
    (∀ i, i < q.alen → (decode q).a.getD i false = q.a.getD i false) ∧
    (∀ i, i < q.plen → (decode q).p.getD i false = q.p.getD i false) ∧
    (∀ q' : ReqPorts, decode q = decode q' ↔
      q.op = q'.op ∧ q.alen = q'.alen ∧ q.plen = q'.plen ∧
      (∀ i, i < q.alen → q.a.getD i false = q'.a.getD i false) ∧
      (∀ i, i < q.plen → q.p.getD i false = q'.p.getD i false))

/-- The other direction of the round trip, on the port images that list exactly the live bits. -/
def Obligations.DecodedCanonicalPortsEncodeBack : Prop :=
  ∀ q : ReqPorts, q.canonical = true → encode (decode q) = q

/-! ### The step and the request it runs -/

/-- In `IDLE` with a request presented, one step is the decoded request's `exec` (combinational) or its SUBMIT
(bit-serial), on the state whose host side has moved one step. -/
def Obligations.StepRunsThePresentedRequest : Prop :=
  ∀ (s : State) (i : Instr), s.phase = .idle → Presents s i →
    (s.params.stepping = .combinational →
      step s = exec i { s with script := s.script.tail, free := s.free + 1 }) ∧
    (s.params.stepping = .bitSerial →
      step s = .next (submit i { s with script := s.script.tail, free := s.free + 1 }))

/-- A table word (whose operands are empty) is run to its response by the very next step, under either stepping. -/
def Obligations.FetchWordIsRunByTheNextStep : Prop :=
  ∀ (s : State) (nbits w : Nat) (i : Instr), decodeTableWord nbits w = some i →
    step (s.withFetchWord nbits w) = exec i { s with phase := .idle, free := s.free + 1 }

/-! ### The four operations -/

/-- R95, REM, as a whole next state. The latch is R143 and R187, the response registers R145 and R187. The model's readings
are: `W` and `POS` as the reference machine leaves them (log 2), an over-capacity request latched whole (log 8), and `CW`,
on a fault also `R`, keeping their old bits (log 14). The frame: parameters, `CW`, the host's side and the counter stay,
and on a fault also `W`, `POS`, `R`. -/
def Obligations.RemAnswersByItsRule : Prop :=
  ∀ (a p : BitSeq) (s : State), s.phase = .idle →
    (p.length < 1 ∨ a.length < p.length →
      exec (.rem a p) s = .next { s with
        op := 0b00#2, a := a, alen := a.length, p := p, plen := p.length,
        err := 0b01#2, ok := false, rlen := 0, cwlen := 0, phase := .done }) ∧
    (1 ≤ p.length → p.length ≤ a.length →
      (s.params.maxN.exceededBy a.length = true ∨ s.params.maxK.exceededBy p.length = true) →
      exec (.rem a p) s = .next { s with
        op := 0b00#2, a := a, alen := a.length, p := p, plen := p.length,
        err := 0b10#2, ok := false, rlen := 0, cwlen := 0, phase := .done }) ∧
    (1 ≤ p.length → p.length ≤ a.length →
      s.params.maxN.exceededBy a.length = false → s.params.maxK.exceededBy p.length = false →
      (mod2rem a p).length = p.length - 1 ∧
      exec (.rem a p) s = .next { s with
        op := 0b00#2, a := a, alen := a.length, p := p, plen := p.length,
        w := finalWindow a p, pos := a.length,
        err := 0b00#2, ok := false, r := mod2rem a p, rlen := p.length - 1, cwlen := 0, phase := .done })

/-- R110, GEN, as a whole next state. The latch is R143 and R187, the response registers R145 and R187. The model's readings
are: `W` and `POS` as the reference machine leaves them (log 2), an over-capacity request latched whole (log 8), and `CW`,
on a fault also `R`, keeping their old bits (log 14). The frame: parameters, `CW`, the host's side and the counter stay,
and on a fault also `W`, `POS`, `R`. -/
def Obligations.GenAnswersByItsRule : Prop :=
  ∀ (a p : BitSeq) (s : State), s.phase = .idle →
    (p.length < 2 ∨ a.length = 0 →
      exec (.gen a p) s = .next { s with
        op := 0b01#2, a := a, alen := a.length, p := p, plen := p.length,
        err := 0b01#2, ok := false, rlen := 0, cwlen := 0, phase := .done }) ∧
    (2 ≤ p.length → 1 ≤ a.length →
      (s.params.maxN.exceededBy (a.length + p.length - 1) = true ∨ s.params.maxK.exceededBy p.length = true) →
      exec (.gen a p) s = .next { s with
        op := 0b01#2, a := a, alen := a.length, p := p, plen := p.length,
        err := 0b10#2, ok := false, rlen := 0, cwlen := 0, phase := .done }) ∧
    (2 ≤ p.length → 1 ≤ a.length →
      s.params.maxN.exceededBy (a.length + p.length - 1) = false → s.params.maxK.exceededBy p.length = false →
      (mod2rem (a ++ BitSeq.zeros (p.length - 1)) p).length = p.length - 1 ∧
      exec (.gen a p) s = .next { s with
        op := 0b01#2, a := a, alen := a.length, p := p, plen := p.length,
        w := finalWindow (a ++ BitSeq.zeros (p.length - 1)) p, pos := a.length + p.length - 1,
        err := 0b00#2, ok := false, r := mod2rem (a ++ BitSeq.zeros (p.length - 1)) p, rlen := p.length - 1,
        cwlen := 0, phase := .done })

/-- R120, ENC, as a whole next state. The latch is R143 and R187, the response registers R145 and R187. The model's readings
are: `W` and `POS` as the reference machine leaves them (log 2), an over-capacity request latched whole (log 8), and `R`
and `CW` keeping their old bits on a fault (log 14). The frame: parameters, the host's side and the counter stay, and on a
fault also `W`, `POS`, `R`, `CW`. -/
def Obligations.EncAnswersByItsRule : Prop :=
  ∀ (a p : BitSeq) (s : State), s.phase = .idle →
    (p.length < 2 ∨ a.length = 0 →
      exec (.enc a p) s = .next { s with
        op := 0b10#2, a := a, alen := a.length, p := p, plen := p.length,
        err := 0b01#2, ok := false, rlen := 0, cwlen := 0, phase := .done }) ∧
    (2 ≤ p.length → 1 ≤ a.length →
      (s.params.maxN.exceededBy (a.length + p.length - 1) = true ∨ s.params.maxK.exceededBy p.length = true) →
      exec (.enc a p) s = .next { s with
        op := 0b10#2, a := a, alen := a.length, p := p, plen := p.length,
        err := 0b10#2, ok := false, rlen := 0, cwlen := 0, phase := .done }) ∧
    (2 ≤ p.length → 1 ≤ a.length →
      s.params.maxN.exceededBy (a.length + p.length - 1) = false → s.params.maxK.exceededBy p.length = false →
      (mod2rem (a ++ BitSeq.zeros (p.length - 1)) p).length = p.length - 1 ∧
      exec (.enc a p) s = .next { s with
        op := 0b10#2, a := a, alen := a.length, p := p, plen := p.length,
        w := finalWindow (a ++ BitSeq.zeros (p.length - 1)) p, pos := a.length + p.length - 1,
        err := 0b00#2, ok := false, r := mod2rem (a ++ BitSeq.zeros (p.length - 1)) p, rlen := p.length - 1,
        cw := a ++ mod2rem (a ++ BitSeq.zeros (p.length - 1)) p, cwlen := a.length + p.length - 1, phase := .done })

/-- R130, VER, as a whole next state, and that no other operation can set `OK` to 1. The latch is R143 and R187, the
response registers R145 and R187. The model's readings are: `W` and `POS` as the reference machine leaves them (log 2), an
over-capacity request latched whole (log 8), and `R` and `CW` keeping their old bits (log 14, after R145 where R53's table
stores `R` in every FINISH). The frame: parameters, `R`, `CW`, the host's side and the counter stay, and on a fault also `W`, `POS`. -/
def Obligations.VerAnswersByItsRule : Prop :=
  ∀ (a p : BitSeq) (s : State), s.phase = .idle →
    (p.length < 2 ∨ a.length < p.length →
      exec (.ver a p) s = .next { s with
        op := 0b11#2, a := a, alen := a.length, p := p, plen := p.length,
        err := 0b01#2, ok := false, rlen := 0, cwlen := 0, phase := .done }) ∧
    (2 ≤ p.length → p.length ≤ a.length →
      (s.params.maxN.exceededBy a.length = true ∨ s.params.maxK.exceededBy p.length = true) →
      exec (.ver a p) s = .next { s with
        op := 0b11#2, a := a, alen := a.length, p := p, plen := p.length,
        err := 0b10#2, ok := false, rlen := 0, cwlen := 0, phase := .done }) ∧
    (2 ≤ p.length → p.length ≤ a.length →
      s.params.maxN.exceededBy a.length = false → s.params.maxK.exceededBy p.length = false →
      exec (.ver a p) s = .next { s with
        op := 0b11#2, a := a, alen := a.length, p := p, plen := p.length,
        w := finalWindow a p, pos := a.length,
        err := 0b00#2, ok := (mod2rem a p).allZero, rlen := 0, cwlen := 0, phase := .done }) ∧
    (∀ (i : Instr) (t : State), exec i s = .next t → t.ok = true → i.op = .ver)

/-- R141: the four meanings together are the transaction function: every request has its one response. The latch is R143 and
R187, the flattened response R29; that an over-capacity request is latched whole is the model's reading (log 8). -/
def Obligations.EveryRequestHasItsOneResponse : Prop :=
  ∀ (i : Instr) (s : State), s.phase = .idle →
    ∃ t : State, exec i s = .next t ∧ t.phase = .done ∧ t.latched = i ∧
      t.response = some (transact s.params i) ∧ t.rspRegister = flatten (transact s.params i)

/-- The frame of `exec`, in every phase and for every outcome of a request, after the writes of R143 and R145. That `R` is
kept under VER, `CW` outside ENC, and both on a fault is the model's reading of their pseudocode (log 14). -/
def Obligations.ExecFrameOfEveryOperation : Prop :=
  ∀ (i : Instr) (s t : State), exec i s = .next t →
    t.params = s.params ∧ t.script = s.script ∧ t.delivered = s.delivered ∧ t.free = s.free ∧
    ((∀ a p, i ≠ .enc a p) → t.cw = s.cw) ∧
    ((∃ a p, i = .ver a p) → t.r = s.r) ∧
    (t.err ≠ 0b00#2 → s.phase = .idle → t.w = s.w ∧ t.pos = s.pos ∧ t.r = s.r ∧ t.cw = s.cw)

/-- R216: a request is taken only in `IDLE` and only with `req_valid = 1`; outside `IDLE` it is not queued, not
remembered and not faulted, and the block's own step does not see it. -/
def Obligations.RequestWhileBusyIsNotTaken : Prop :=
  ∀ s : State,
    (s.phase ≠ .idle →
      (∀ i, exec i s = .next s) ∧
      (∀ (d : Drive) (rest : List Drive) (valid : Bool) (q : ReqPorts),
        step { s with script := { d with reqValid := valid, req := q } :: rest } =
          step { s with script := d :: rest })) ∧
    (s.phase = .idle → s.drive.rst = false → s.drive.reqValid = false →
      step s = .next { s with script := s.script.tail, free := s.free + 1 })

/-! ### Faults -/

/-- R181: InvalidInputLength is reported exactly on the requests of the table. The last clause gives the whole next state:
the latch (R143) and the writes of R187; that `R` and `CW` keep their old bits is the model's reading (log 14), that a request
over the capacity is latched whole log 8. -/
def Obligations.InvalidInputLengthIsRaisedExactlyByTheTable : Prop :=
  ∀ (i : Instr) (s : State), s.phase = .idle →
    ∃ t : State, exec i s = .next t ∧ (t.err = 0b01#2 ↔ InvalidLength i) ∧
      (InvalidLength i → t = { s with
        op := codeOfOp i.op, a := i.a, alen := i.a.length, p := i.p, plen := i.p.length,
        err := 0b01#2, ok := false, rlen := 0, cwlen := 0, phase := .done })

/-- R182: CapacityExceeded is reported exactly where the request passes R181's tests and does not fit, hence never
with unbounded parameters. -/
def Obligations.CapacityExceededIsRaisedExactlyByOverCapacity : Prop :=
  ∀ (i : Instr) (s : State), s.phase = .idle →
    ∃ t : State, exec i s = .next t ∧ (t.err = 0b10#2 ↔ OverCapacity s.params i) ∧
      (s.params.maxN = .unbounded → s.params.maxK = .unbounded → t.err ≠ 0b10#2)

/-- R187: taking a fault, in the SUBMIT step of the bit-serial machine (R143) and in `exec` alike. That `R` and `CW` keep
their old bits is the model's reading (log 14), that an over-capacity request is latched whole log 8. -/
def Obligations.FaultEntryLatchesTheRequestAndWritesTheErrorResponse : Prop :=
  ∀ (i : Instr) (s : State) (e : ReqFault), s.phase = .idle → checkInstr s.params i = some e →
    exec i s = .next (submit i s) ∧
    submit i s = { s with
      op := codeOfOp i.op, a := i.a, alen := i.a.length, p := i.p, plen := i.p.length,
      err := faultCode e, ok := false, rlen := 0, cwlen := 0, phase := .done } ∧
    (submit i s).response = some (.rspErr e)

/-- R185, R186: which fault a request is answered with is read from the operation and the two lengths alone. -/
def Obligations.FaultDependsOnLengthsAlone : Prop :=
  ∀ (i j : Instr) (s : State), s.phase = .idle → i.op = j.op → i.a.length = j.a.length → i.p.length = j.p.length →
    ∃ t u : State, exec i s = .next t ∧ exec j s = .next u ∧ t.err = u.err ∧ t.phase = u.phase

/-- R123: ENC faults exactly when GEN does, with the same fault, and otherwise has GEN's remainder. -/
def Obligations.EncAgreesWithGen : Prop :=
  ∀ (a p : BitSeq) (s : State), s.phase = .idle →
    ∃ t u : State, exec (.enc a p) s = .next t ∧ exec (.gen a p) s = .next u ∧ t.err = u.err ∧
      (u.err = 0b00#2 → t.r = u.r ∧ t.rlen = u.rlen ∧ t.cw = a ++ u.r) ∧
      t.w = u.w ∧ t.pos = u.pos ∧ blockSteps s.params (.enc a p) = blockSteps s.params (.gen a p)

/-- Only VER can leave `OK` at 1, and then no fault is reported (R29, R130, R187). -/
def Obligations.OnlyVerSetsTheOkFlag : Prop :=
  ∀ (i : Instr) (s t : State), s.phase = .idle → exec i s = .next t → t.ok = true →
    t.err = 0b00#2 ∧ ∃ a p, i = .ver a p ∧ (mod2rem a p).allZero = true

/-! ### The step rules of the reference machine -/

/-- R143: SUBMIT, on the bit-serial machine; outside `IDLE` nothing is latched. That `R` and `CW` keep their old bits on a
fault is the model's reading of the pseudocode (log 14), that an over-capacity request is latched whole log 8. -/
def Obligations.SubmitLatchesTheRequestAndLoadsTheWindow : Prop :=
  ∀ (s : State) (i : Instr), s.params.stepping = .bitSerial → Presents s i →
    (s.phase = .idle →
      (∀ e, checkInstr s.params i = some e →
        step s = .next { s with
          op := codeOfOp i.op, a := i.a, alen := i.a.length, p := i.p, plen := i.p.length,
          err := faultCode e, ok := false, rlen := 0, cwlen := 0, phase := .done,
          script := s.script.tail, free := s.free + 1 }) ∧
      (checkInstr s.params i = none →
        step s = .next { s with
          op := codeOfOp i.op, a := i.a, alen := i.a.length, p := i.p, plen := i.p.length,
          w := (view i.op i.a i.p).take i.p.length, pos := i.p.length, phase := .run,
          script := s.script.tail, free := s.free + 1 })) ∧
    (s.phase ≠ .idle → ∀ t, step s = .next t →
      t.op = s.op ∧ t.a = s.a ∧ t.alen = s.alen ∧ t.p = s.p ∧ t.plen = s.plen)

/-- R144: ADVANCE. -/
def Obligations.AdvanceTakesInOneDividendBit : Prop :=
  ∀ s : State, s.phase = .run → s.drive.rst = false → windowReady s = true → s.pos < s.viewLen →
    step s = .next { s with
      w := (condxor s.w s.p).drop 1 ++ [s.dbit s.pos], pos := s.pos + 1,
      script := s.script.tail, free := s.free + 1 }

/-- R145: FINISH, case by case of `OP`. That `R` is kept under VER, and `CW` outside ENC, is the model's reading of the
pseudocode (log 14). -/
def Obligations.FinishWritesTheResponseOfTheOperation : Prop :=
  ∀ s : State, s.phase = .run → s.drive.rst = false → windowReady s = true → s.pos = s.viewLen →
    ((s.op = 0b00#2 ∨ s.op = 0b01#2) →
      step s = .next { s with
        err := 0b00#2, r := (condxor s.w s.p).drop 1, rlen := s.plen - 1, cwlen := 0, ok := false,
        w := condxor s.w s.p, phase := .done, script := s.script.tail, free := s.free + 1 }) ∧
    (s.op = 0b10#2 →
      step s = .next { s with
        err := 0b00#2, r := (condxor s.w s.p).drop 1, rlen := s.plen - 1,
        cw := s.a ++ (condxor s.w s.p).drop 1, cwlen := s.alen + s.plen - 1, ok := false,
        w := condxor s.w s.p, phase := .done, script := s.script.tail, free := s.free + 1 }) ∧
    (s.op = 0b11#2 →
      step s = .next { s with
        err := 0b00#2, rlen := 0, cwlen := 0, ok := BitSeq.allZero ((condxor s.w s.p).drop 1),
        w := condxor s.w s.p, phase := .done, script := s.script.tail, free := s.free + 1 })

/-- R146: COLLECT delivers the response and returns the block to `IDLE`; no other register changes. Until it happens
the block does nothing else in `DONE`. -/
def Obligations.CollectDeliversTheResponse : Prop :=
  ∀ s : State, s.phase = .done → s.drive.rst = false →
    (s.drive.rspReady = true →
      step s = .next { s with
        delivered := s.delivered ++ [unflatten (opOfCode s.op) s.rspRegister], phase := .idle,
        script := s.script.tail, free := s.free + 1 }) ∧
    (s.drive.rspReady = false →
      step s = .next { s with script := s.script.tail, free := s.free + 1 })

/-- R210, R211: RESET in every phase leaves `IDLE` with no response, and delivers nothing. That the registers take
the values of `State.reset` is the model's choice (log 4). -/
def Obligations.ResetLeavesIdleAndDeliversNothing : Prop :=
  ∀ s : State, s.drive.rst = true →
    step s = .next { State.reset with
      params := s.params, script := s.script.tail, delivered := s.delivered, free := s.free + 1 } ∧
    ∀ t, step s = .next t → t.rspValid = false ∧ (t.drive.rst = false → t.reqReady = true)

/-- R218, R150: `DONE` holds its response, and `IDLE` waits, for any number of steps in which the host asks for nothing. -/
def Obligations.BlockWaitsForTheHostWithoutChange : Prop :=
  ∀ (n : Nat) (s : State),
    (s.phase = .done → (∀ d ∈ s.script.take n, d.rst = false ∧ d.rspReady = false) →
      Sys2Proof.core.run n s = .next (later n s)) ∧
    (s.phase = .idle → (∀ d ∈ s.script.take n, d.rst = false ∧ d.reqValid = false) →
      Sys2Proof.core.run n s = .next (later n s))

/-- R147: the phase graph, and `POS` in `RUN`. That a valid request goes from `IDLE` to `DONE` in one step under
combinational stepping is R226 and the model's choice (log 2): it takes `RUN` within the step. -/
def Obligations.PhasesFollowTheGraph : Prop :=
  ∀ s t : State, step s = .next t →
    (s.drive.rst = true → t.phase = .idle) ∧
    (s.drive.rst = false → s.phase = .idle → s.drive.reqValid = false → t.phase = .idle) ∧
    (s.drive.rst = false → s.phase = .idle → s.drive.reqValid = true →
      t.phase = if s.params.stepping = .bitSerial ∧ checkInstr s.params s.request = none
        then .run else .done) ∧
    (s.drive.rst = false → s.phase = .run → s.pos < s.viewLen → t.phase = .run ∧ t.pos = s.pos + 1) ∧
    (s.drive.rst = false → s.phase = .run → s.viewLen ≤ s.pos → t.phase = .done ∧ t.pos = s.pos) ∧
    (s.drive.rst = false → s.phase = .done → t.phase = if s.drive.rspReady then .idle else .done)

/-- R32: no step writes the operands after SUBMIT has latched them, and no step drives a request port. -/
def Obligations.OperandsAreNeverModifiedAfterSubmit : Prop :=
  ∀ s t : State, step s = .next t → s.drive.rst = false → (s.phase ≠ .idle ∨ s.drive.reqValid = false) →
    t.a = s.a ∧ t.alen = s.alen ∧ t.p = s.p ∧ t.plen = s.plen ∧ t.op = s.op ∧ t.script = s.script.tail

/-- Only COLLECT delivers a response, the parameters never change, and each step consumes one drive (R146, R149, R8). -/
def Obligations.OnlyCollectDeliversAndParametersStay : Prop :=
  ∀ s t : State, step s = .next t →
    t.params = s.params ∧ t.script = s.script.tail ∧
    t.delivered = if s.phase = .done ∧ s.drive.rst = false ∧ s.drive.rspReady = true
      then s.delivered ++ [s.response] else s.delivered

/-! ### The dividend view, accesses and ports -/

/-- R52: the dividend view of each operation, and that `Dbit` gives its bits and its length is `N`. -/
def Obligations.DbitReadsTheDividendView : Prop :=
  (∀ a p : BitSeq, view .rem a p = a ∧ view .ver a p = a ∧
    view .gen a p = a ++ BitSeq.zeros (p.length - 1) ∧ view .enc a p = a ++ BitSeq.zeros (p.length - 1)) ∧
  ∀ s : State, s.a.length = s.alen → s.p.length = s.plen → 1 ≤ s.plen →
    (view (opOfCode s.op) s.a s.p).length = s.viewLen ∧
    ∀ i, i < s.viewLen → s.dbit i = (view (opOfCode s.op) s.a s.p).getD i false

/-- R54: in `RUN` every access of a block step is within bounds. -/
def Obligations.AccessesInRunAreInBounds : Prop :=
  ∀ s : State, Inv s → s.phase = .run →
    windowReady s = true ∧ s.pos ≤ s.viewLen ∧
    s.memRead .p 0 s.plen = some s.p ∧ s.memRead .w 0 s.plen = some s.w ∧ s.memRead .a 0 s.alen = some s.a

/-- R151: what the host can observe, by phase, on the pins the ports have (R30). `req_ready` follows the phase while
`rst = 1` too, as R30 says (log 10). -/
def Obligations.PortsShowThePhase : Prop :=
  ∀ s : State, Inv s →
    (s.phase = .idle → s.reqReady = true ∧ s.rspValid = false) ∧
    (s.phase = .run → s.reqReady = false ∧ s.rspValid = false) ∧
    (s.phase = .done → s.reqReady = false ∧ s.rspValid = true ∧
      s.rspPorts = flatten (transact s.params s.latched) ∧
      (∀ i, i < s.rspPorts.rlen → s.rspRPin i = some (s.rspPorts.r.getD i false)) ∧
      (∀ i, i < s.rspPorts.cwlen → s.rspCwPin i = some (s.rspPorts.cw.getD i false)))

/-- R29: the flattening is injective on the responses a request of one operation can have, and COLLECT's reading undoes it. -/
def Obligations.FlatteningIsReadBackByTheOperation : Prop :=
  ∀ (c : Config.Params) (i j : Instr),
    unflatten i.op (flatten (transact c i)) = some (transact c i) ∧
    (i.op = j.op → flatten (transact c i) = flatten (transact c j) → transact c i = transact c j)

/-- R75: every code is an operation's, and the reserved fault code is never driven while `rsp_valid = 1`. -/
def Obligations.NoReservedCodeIsUsed : Prop :=
  (∀ c : BitVec 2, codeOfOp (opOfCode c) = c) ∧
  (∀ s : State, Inv s → s.rspValid = true → s.rspPorts.err ≠ 0b11#2)

/-! ### Invariant, progress, and the agreement of the machine with the transaction function -/

/-- The invariant holds after reset. -/
def Obligations.ResetSatisfiesTheInvariant : Prop := Inv State.reset

/-- Every step keeps the invariant, from every state that meets it. -/
def Obligations.EveryStepKeepsTheInvariant : Prop :=
  ∀ s t : State, Inv s → step s = .next t → Inv t

/-- R150: from a state that meets the invariant no step faults and none is refused: "The block is never stuck in `RUN`." -/
def Obligations.InvariantStatesNeverStop : Prop :=
  ∀ s : State, Inv s → ∃ t : State, step s = .next t

/-- R150: `RUN` ends after `N - POS + 1` steps, in the response to the latched request, whatever else the host drives. -/
def Obligations.RunReachesDoneInCountedSteps : Prop :=
  ∀ s : State, Inv s → s.phase = .run → NoReset s (s.viewLen - s.pos + 1) →
    ∃ t : State, Sys2Proof.core.run (s.viewLen - s.pos + 1) s = .next t ∧ t.phase = .done ∧
      t.response = some (transact s.params s.latched) ∧ t.delivered = s.delivered

/-- R148, the induction on `POS`: after SUBMIT and `j` ADVANCEs the window is the one of `mod2rem` after `j` rounds. -/
def Obligations.WindowFollowsTheDivisionRoundByRound : Prop :=
  ∀ (s : State) (i : Instr) (j : Nat), s.phase = .idle → s.params.stepping = .bitSerial → Presents s i →
    checkInstr s.params i = none → j ≤ (view i.op i.a i.p).length - i.p.length → NoReset s (1 + j) →
    ∃ t : State, Sys2Proof.core.run (1 + j) s = .next t ∧ t.phase = .run ∧ t.latched = i ∧
      t.pos = i.p.length + j ∧ t.w = windowAfter (view i.op i.a i.p) i.p j

/-- R148: the step machine, run from the SUBMIT of any request, ends exactly where the transaction function does. -/
def Obligations.StepMachineReachesTheTransactionResult : Prop :=
  ∀ (s : State) (i : Instr), s.phase = .idle → Presents s i → NoReset s (stepsToDone s.params i) →
    ∃ t : State, exec i s = .next t ∧ t.phase = .done ∧ t.response = some (transact s.params i) ∧
      Sys2Proof.core.run (stepsToDone s.params i) s = .next (later (stepsToDone s.params i) t)

/-- R148, R153, R7: the response the host collects is the transaction function of the request it submitted, whatever
else it drives in between but RESET, on the bit-serial and the combinational machine alike. -/
def Obligations.CollectedResponseIsTheTransactionFunction : Prop :=
  ∀ (s : State) (i : Instr) (d : Drive), s.phase = .idle → Presents s i →
    NoReset s (stepsToDone s.params i) →
    s.script[stepsToDone s.params i]? = some d → d.rst = false → d.rspReady = true →
    ∃ t : State, Sys2Proof.core.run (stepsToDone s.params i + 1) s = .next t ∧ t.phase = .idle ∧
      t.delivered = s.delivered ++ [some (transact s.params i)]

/-- R31: no state crosses a transaction. Two `IDLE` states under the same drives, whatever their registers hold, show the
host the same handshakes and deliver the same responses for ever. -/
def Obligations.NoStateCrossesATransaction : Prop :=
  ∀ (s s' : State) (n : Nat), s.phase = .idle → s'.phase = .idle → s'.params = s.params → s'.script = s.script →
    ∃ (t t' : State) (new : List (Option Response)), Sys2Proof.core.run n s = .next t ∧ Sys2Proof.core.run n s' = .next t' ∧
      t'.phase = t.phase ∧ t.reqReady = t'.reqReady ∧ t.rspValid = t'.rspValid ∧
      (t.rspValid = true → t.rspPorts = t'.rspPorts) ∧
      t.delivered = s.delivered ++ new ∧ t'.delivered = s'.delivered ++ new

/-- R211: after RESET the block behaves as any `IDLE` block does, whatever transaction was abandoned, and the abandoned
one is never answered: what is delivered later is what the `IDLE` block `u` delivers. -/
def Obligations.ResetForgetsTheAbandonedTransaction : Prop :=
  ∀ (s u : State) (n : Nat), s.drive.rst = true → u.phase = .idle → u.params = s.params →
    u.script = s.script.tail →
    ∃ (t v : State) (new : List (Option Response)), Sys2Proof.core.run (n + 1) s = .next t ∧ Sys2Proof.core.run n u = .next v ∧
      t.phase = v.phase ∧ t.delivered = s.delivered ++ new ∧ v.delivered = u.delivered ++ new

/-! ### The laws of the division -/

/-- R90, R91: the two moves of the window, bit by bit. -/
def Obligations.WindowMovesBitByBit : Prop :=
  ∀ (w v : BitSeq) (b : Bool), 1 ≤ v.length → w.length = v.length →
    (condxor w v).length = v.length ∧
    (∀ i, i < v.length → (condxor w v).getD i false =
      if w.getD 0 false then Bool.xor (w.getD i false) (v.getD i false) else w.getD i false) ∧
    (shiftin w b).length = v.length ∧ (shiftin w b).getD (v.length - 1) false = b ∧
    (∀ i, i + 1 < v.length → (shiftin w b).getD i false = w.getD (i + 1) false)

/-- R160, and its consequence for the remainder that REM, GEN and ENC answer with. -/
def Obligations.RemainderHasLengthOneLessThanDivisor : Prop :=
  (∀ d v : BitSeq, 1 ≤ v.length → v.length ≤ d.length → (mod2rem d v).length = v.length - 1) ∧
  ∀ (i : Instr) (s : State), s.phase = .idle → Valid s.params i → i.op ≠ .ver →
    ∃ t : State, exec i s = .next t ∧ t.err = 0b00#2 ∧ t.r.length = i.p.length - 1 ∧ t.rlen = t.r.length

/-- R93. -/
def Obligations.SkippingTheZeroXorChangesNothing : Prop :=
  ∀ d v : BitSeq, mod2rem d v = mod2remSkip d v

/-- R94: the uniform form, and the number of conditional XORs. -/
def Obligations.UniformFormIsTheDivision : Prop :=
  ∀ d v : BitSeq, 1 ≤ v.length → v.length ≤ d.length →
    mod2rem d v = mod2remUniform d v ∧ (testedBits d v).length = d.length - v.length + 1

/-- R96, R97: the minimal dividend, and the one-bit divisor, which REM accepts with the empty remainder. -/
def Obligations.MinimalDividendAndOneBitDivisor : Prop :=
  (∀ d v : BitSeq, 1 ≤ v.length → d.length = v.length → mod2rem d v = (condxor d v).drop 1) ∧
  (∀ (d : BitSeq) (b : Bool), 1 ≤ d.length → mod2rem d [b] = [])

/-- R98: the all-zero divisor lets the last `k - 1` bits of the dividend through. -/
def Obligations.AllZeroDivisorGivesTheTail : Prop :=
  ∀ (d : BitSeq) (k : Nat), 1 ≤ k → k ≤ d.length → mod2rem d (BitSeq.zeros k) = d.drop (d.length - k + 1)

/-- R99. -/
def Obligations.AllZeroDividendGivesZeros : Prop :=
  ∀ (n : Nat) (v : BitSeq), 1 ≤ v.length → v.length ≤ n → mod2rem (BitSeq.zeros n) v = BitSeq.zeros (v.length - 1)

/-- R166. -/
def Obligations.ZeroLeadGivesTheTail : Prop :=
  ∀ d v : BitSeq, 1 ≤ v.length → v.length ≤ d.length →
    (∀ i, i ≤ d.length - v.length → d.getD i false = false) →
    mod2rem d v = d.drop (d.length - v.length + 1)

/-- R165: linearity in the dividend, and its consequence: a codeword with an error has the error's remainder. -/
def Obligations.DivisionIsLinearInTheDividend : Prop :=
  (∀ d d' v : BitSeq, 1 ≤ v.length → v.length ≤ d.length → d.length = d'.length →
    mod2rem (BitSeq.xor d d') v = BitSeq.xor (mod2rem d v) (mod2rem d' v)) ∧
  (∀ a p e : BitSeq, 1 ≤ a.length → 2 ≤ p.length → e.length = a.length + p.length - 1 →
    mod2rem (BitSeq.xor (a ++ mod2rem (a ++ BitSeq.zeros (p.length - 1)) p) e) p = mod2rem e p)

/-- R121, R163: the codeword's layout. -/
def Obligations.CodewordIsMessageThenRemainder : Prop :=
  ∀ (a p : BitSeq) (s t : State), s.phase = .idle → Valid s.params (.enc a p) → exec (.enc a p) s = .next t →
    t.a = a ∧ t.cw.length = a.length + p.length - 1 ∧ t.cwlen = t.cw.length ∧ t.cw.take a.length = a ∧
    t.cw.drop a.length = t.r ∧ t.r.length = p.length - 1 ∧ t.rlen = t.r.length ∧
    t.cw = BitSeq.xor (a ++ BitSeq.zeros (p.length - 1)) (BitSeq.zeros a.length ++ t.r)

/-- R161, R122: the round trip, on the machine: the codeword ENC answers divides to zeros and verifies, for every
polynomial of length at least 2, in any two `IDLE` states with the same parameters. -/
def Obligations.EncodedCodewordVerifies : Prop :=
  ∀ (a p : BitSeq) (s u : State), s.phase = .idle → u.phase = .idle → u.params = s.params →
    Valid s.params (.enc a p) →
    ∃ t t' : State, exec (.enc a p) s = .next t ∧ mod2rem t.cw p = BitSeq.zeros (p.length - 1) ∧
      exec (.ver t.cw p) u = .next t' ∧ t'.err = 0b00#2 ∧ t'.ok = true

/-- R168 (and R164 for a single flipped bit): what VER reports of a corrupted codeword depends on the error pattern alone. -/
def Obligations.VerdictDependsOnTheErrorPatternAlone : Prop :=
  ∀ (a p e : BitSeq) (s u : State), s.phase = .idle → u.phase = .idle → u.params = s.params →
    Valid s.params (.enc a p) → e.length = a.length + p.length - 1 →
    ∃ t t' : State, exec (.enc a p) s = .next t ∧ exec (.ver (BitSeq.xor t.cw e) p) u = .next t' ∧
      t'.err = 0b00#2 ∧ t'.ok = (mod2rem e p).allZero

/-- R168: a shifted copy of a polynomial with a leading 1 is an error that no codeword shows. -/
def Obligations.ShiftedPolynomialIsUndetectable : Prop :=
  ∀ (p : BitSeq) (i j : Nat), p.getD 0 false = true →
    mod2rem (BitSeq.zeros i ++ p ++ BitSeq.zeros j) p = BitSeq.zeros (p.length - 1)

/-- R164: a polynomial with a leading 1 and a second 1 bit detects every single flipped bit. -/
def Obligations.SingleFlipIsDetectedByTwoTermPolynomials : Prop :=
  ∀ (p : BitSeq) (n i : Nat), p.getD 0 false = true → (∃ j, 0 < j ∧ p.getD j false = true) →
    p.length ≤ n → i < n → (mod2rem (oneHot n i) p).allZero = false

/-- R167: with a leading 1 in the divisor, `mod2rem` is the polynomial remainder and the tested leading bits are the
quotient: dividend = quotient times divisor plus remainder, and no other remainder of that length will do. -/
def Obligations.DivisionIsPolynomialDivision : Prop :=
  ∀ d v : BitSeq, v.getD 0 false = true → v.length ≤ d.length →
    d = BitSeq.xor (clmul (testedBits d v) v)
      (BitSeq.zeros (d.length - v.length + 1) ++ mod2rem d v) ∧
    ∀ q r : BitSeq, q.length = d.length - v.length + 1 → r.length = v.length - 1 →
      d = BitSeq.xor (clmul q v) (BitSeq.zeros (d.length - v.length + 1) ++ r) →
      q = testedBits d v ∧ r = mod2rem d v

/-! ### The widths of the request ports -/

/-- R30: `req_a` and `req_p` have `MAXN` and `MAXK` pins. Each operand bit with a pin comes from it; a step reads nothing
else of the drive's request; and neither the fault of a request nor the operands of a valid one depend on bits without a pin. -/
def Obligations.OperandBitsComeThroughThePins : Prop :=
  ∀ s : State,
    s.request.op = opOfCode s.drive.req.op ∧
    s.request.a.length = s.drive.req.alen ∧ s.request.p.length = s.drive.req.plen ∧
    (∀ i, i < s.drive.req.alen → s.params.maxN.hasPin i = true →
      s.request.a.getD i false = s.drive.req.a.getD i false) ∧
    (∀ i, i < s.drive.req.plen → s.params.maxK.hasPin i = true →
      s.request.p.getD i false = s.drive.req.p.getD i false) ∧
    checkInstr s.params s.request = checkInstr s.params (decode s.drive.req) ∧
    (checkInstr s.params s.request = none → s.request = decode s.drive.req) ∧
    ∀ (d : Drive) (rest : List Drive) (q q' : ReqPorts), q.op = q'.op → q.alen = q'.alen → q.plen = q'.plen →
      (∀ i, i < q.alen → s.params.maxN.hasPin i = true → q.a.getD i false = q'.a.getD i false) →
      (∀ i, i < q.plen → s.params.maxK.hasPin i = true → q.p.getD i false = q'.p.getD i false) →
      step { s with script := { d with req := q } :: rest } = step { s with script := { d with req := q' } :: rest }
end

