-- ==== Sys2Proof/Laws/Decoding.lean ====
section
/-! SUPPORT. The codes, the operand assembly and the request as syntax. -/

namespace Sys2Proof.Laws

/-- R71: each operation is the one its code selects. -/
@[simp] theorem opOfCode_codeOfOp (o : Op) : opOfCode (codeOfOp o) = o := by cases o <;> decide

theorem op_ofParts (o : Op) (a p : BitSeq) : (Instr.ofParts o a p).op = o := by cases o <;> rfl

theorem a_ofParts (o : Op) (a p : BitSeq) : (Instr.ofParts o a p).a = a := by cases o <;> rfl

theorem p_ofParts (o : Op) (a p : BitSeq) : (Instr.ofParts o a p).p = p := by cases o <;> rfl

theorem ofParts_self (i : Instr) : Instr.ofParts i.op i.a i.p = i := by cases i <;> rfl

theorem assemble_length (port : BitSeq) (n : Nat) : (assemble port n).length = n := by simp [assemble]

/-- R72: operand bit `i` is port bit `i`. -/
theorem assemble_getD (port : BitSeq) {n i : Nat} (h : i < n) :
    (assemble port n).getD i false = port.getD i false := by
  simp [assemble, List.getD, h]

theorem assemble_append (s beyond : BitSeq) : assemble (s ++ beyond) s.length = s := by
  apply List.ext_getElem
  · simp [assemble]
  · intro i h1 h2
    simp [assemble, List.getElem?_append_left h2, List.getElem?_eq_getElem h2]

theorem assemble_self (s : BitSeq) : assemble s s.length = s := by
  simpa using assemble_append s []

theorem decode_op (q : ReqPorts) : (decode q).op = opOfCode q.op := op_ofParts _ _ _

theorem decode_a (q : ReqPorts) : (decode q).a = assemble q.a q.alen := a_ofParts _ _ _

theorem decode_p (q : ReqPorts) : (decode q).p = assemble q.p q.plen := p_ofParts _ _ _

end Sys2Proof.Laws
end

