-- ==== Sys2Proof/Laws/Sequences.lean ====
section
/-! SUPPORT. Bit sequences, the moves of the window and the loop of the division: lengths and the small algebra of XOR. -/

namespace Sys2Proof.Laws

open Sys2Proof.Machine

/-! ### XOR and zeros -/

@[simp] theorem zeros_length (n : Nat) : (BitSeq.zeros n).length = n := by simp [BitSeq.zeros]

theorem zeros_zero : BitSeq.zeros 0 = [] := rfl

theorem zeros_succ (n : Nat) : BitSeq.zeros (n + 1) = false :: BitSeq.zeros n := rfl

theorem zeros_append (m n : Nat) : BitSeq.zeros m ++ BitSeq.zeros n = BitSeq.zeros (m + n) := by
  simp [BitSeq.zeros]

theorem zeros_getD (n i : Nat) : (BitSeq.zeros n).getD i false = false := by
  rcases Nat.lt_or_ge i n with h | h <;> simp [BitSeq.zeros, List.getD, h]

@[simp] theorem xor_length (s t : BitSeq) : (BitSeq.xor s t).length = min s.length t.length := by
  simp [BitSeq.xor]

@[simp] theorem xor_cons (b c : Bool) (s t : BitSeq) :
    BitSeq.xor (b :: s) (c :: t) = Bool.xor b c :: BitSeq.xor s t := rfl

@[simp] theorem xor_nil_left (t : BitSeq) : BitSeq.xor [] t = [] := rfl

@[simp] theorem xor_nil_right (s : BitSeq) : BitSeq.xor s [] = [] := by cases s <;> rfl

theorem bitXor_comm (s t : BitSeq) : BitSeq.xor s t = BitSeq.xor t s := by
  induction s generalizing t with
  | nil => simp
  | cons b s ih => cases t with
    | nil => rfl
    | cons c t => simp [ih t, Bool.xor_comm]

theorem bitXor_assoc (s t u : BitSeq) : BitSeq.xor (BitSeq.xor s t) u = BitSeq.xor s (BitSeq.xor t u) := by
  induction s generalizing t u with
  | nil => simp
  | cons b s ih => cases t with
    | nil => simp
    | cons c t => cases u with
      | nil => simp
      | cons d u => simp [ih t u]

/-- R12: XOR is its own inverse. -/
theorem bitXor_self (s : BitSeq) : BitSeq.xor s s = BitSeq.zeros s.length := by
  induction s with
  | nil => rfl
  | cons b s ih => simp [ih, zeros_succ]

/-- R93: `b XOR 0 = b`, bit by bit. -/
theorem xor_zeros (s : BitSeq) : BitSeq.xor s (BitSeq.zeros s.length) = s := by
  induction s with
  | nil => rfl
  | cons b s ih => simp [ih, zeros_succ]

theorem zeros_xor (s : BitSeq) : BitSeq.xor (BitSeq.zeros s.length) s = s := by
  rw [bitXor_comm, xor_zeros]

theorem xor_append {s t : BitSeq} (s' t' : BitSeq) (h : s.length = t.length) :
    BitSeq.xor (s ++ s') (t ++ t') = BitSeq.xor s t ++ BitSeq.xor s' t' :=
  List.zipWith_append h

theorem xor_take (s t : BitSeq) (n : Nat) : (BitSeq.xor s t).take n = BitSeq.xor (s.take n) (t.take n) := by
  simp [BitSeq.xor, List.take_zipWith]

theorem xor_drop (s t : BitSeq) (n : Nat) : (BitSeq.xor s t).drop n = BitSeq.xor (s.drop n) (t.drop n) := by
  simp [BitSeq.xor, List.drop_zipWith]

theorem xor_getD {s t : BitSeq} (h : s.length = t.length) (i : Nat) :
    (BitSeq.xor s t).getD i false = Bool.xor (s.getD i false) (t.getD i false) := by
  induction s generalizing t i with
  | nil => simp_all [eq_comm]
  | cons b s ih => cases t with
    | nil => simp at h
    | cons c t => cases i with
      | zero => simp
      | succ i => simpa using ih (by simpa using h) i

theorem allZero_iff (s : BitSeq) : s.allZero = true ↔ s = BitSeq.zeros s.length := by
  induction s with
  | nil => simp [BitSeq.allZero, BitSeq.zeros]
  | cons b s ih =>
    have h : BitSeq.allZero (b :: s) = (!b && BitSeq.allZero s) := rfl
    rw [h, List.length_cons, zeros_succ]
    cases b <;> simp [ih]

/-! ### The moves of the window -/

@[simp] theorem leadOf_cons (b : Bool) (w : BitSeq) : leadOf (b :: w) = b := rfl

theorem leadOf_eq_getD (w : BitSeq) : leadOf w = w.getD 0 false := by cases w <;> rfl

theorem condxor_of_lead {w : BitSeq} (v : BitSeq) (h : leadOf w = true) : condxor w v = BitSeq.xor w v := by
  simp [condxor, h]

theorem condxor_of_not_lead {w : BitSeq} (v : BitSeq) (h : leadOf w = false) : condxor w v = w := by
  simp [condxor, h, xor_zeros]

/-- R90: the result has the window's length. -/
theorem condxor_length {w v : BitSeq} (h : w.length = v.length) : (condxor w v).length = v.length := by
  unfold condxor
  split <;> simp [h]

/-- R91: the result has the window's length. -/
theorem shiftin_length {w : BitSeq} (b : Bool) (h : 1 ≤ w.length) : (shiftin w b).length = w.length := by
  simp only [shiftin, List.length_append, List.length_drop, List.length_cons, List.length_nil]
  omega

theorem slide_length {v : BitSeq} (hv : 1 ≤ v.length) (rest : BitSeq) :
    ∀ {w : BitSeq}, w.length = v.length → (slide v w rest).length = v.length := by
  induction rest with
  | nil => intro w h; exact h
  | cons b rest ih =>
    intro w h
    have hc := condxor_length h
    exact ih (by rw [shiftin_length b (by omega), hc])

theorem finalWindow_length {d v : BitSeq} (hv : 1 ≤ v.length) (h : v.length ≤ d.length) :
    (finalWindow d v).length = v.length :=
  condxor_length (slide_length hv _ (by simp [h]))

/-- R92: one more round of the loop, at the end. -/
theorem slide_concat (v : BitSeq) (b : Bool) (rest : BitSeq) :
    ∀ w : BitSeq, slide v w (rest ++ [b]) = shiftin (condxor (slide v w rest) v) b := by
  induction rest with
  | nil => intro w; rfl
  | cons c rest ih => intro w; exact ih _

theorem windowAfter_zero (d v : BitSeq) : windowAfter d v 0 = d.take v.length := by
  simp [windowAfter, slide]

/-- R148: round `j + 1` of the loop takes in dividend bit `k + j`. -/
theorem windowAfter_succ {d v : BitSeq} {j : Nat} (h : v.length + j < d.length) :
    windowAfter d v (j + 1) =
      shiftin (condxor (windowAfter d v j) v) (d.getD (v.length + j) false) := by
  have hj : j < (d.drop v.length).length := by simp; omega
  have hd : (d.drop v.length).take (j + 1) =
      (d.drop v.length).take j ++ [d.getD (v.length + j) false] := by
    rw [List.take_add_one, List.getElem?_eq_getElem hj]
    simp [List.getD, h]
  rw [windowAfter, hd, slide_concat, windowAfter]

/-- R92: after the last round only the final conditional XOR is left. -/
theorem finalWindow_eq {d v : BitSeq} :
    finalWindow d v = condxor (windowAfter d v (d.length - v.length)) v := by
  have : (d.drop v.length).take (d.length - v.length) = d.drop v.length :=
    List.take_of_length_le (by simp)
  rw [finalWindow, windowAfter, this]

theorem windowAfter_length {d v : BitSeq} (j : Nat) (hv : 1 ≤ v.length) (h : v.length ≤ d.length) :
    (windowAfter d v j).length = v.length :=
  slide_length hv _ (by simp [h])

end Sys2Proof.Laws
end

