-- ==== Sys2Proof/Laws/State.lean ====
section
/-! SUPPORT. One lemma per field per update of the state, each true by rfl, so that no proof unfolds a record update. -/

namespace Sys2Proof.Laws

open Sys2Proof.Machine

variable (s : State)

@[simp] theorem latch_params (o : Op) (a p : BitSeq) : (s.latch o a p).params = s.params := rfl
@[simp] theorem latch_phase (o : Op) (a p : BitSeq) : (s.latch o a p).phase = s.phase := rfl
@[simp] theorem latch_op (o : Op) (a p : BitSeq) : (s.latch o a p).op = codeOfOp o := rfl
@[simp] theorem latch_a (o : Op) (a p : BitSeq) : (s.latch o a p).a = a := rfl
@[simp] theorem latch_alen (o : Op) (a p : BitSeq) : (s.latch o a p).alen = a.length := rfl
@[simp] theorem latch_p (o : Op) (a p : BitSeq) : (s.latch o a p).p = p := rfl
@[simp] theorem latch_plen (o : Op) (a p : BitSeq) : (s.latch o a p).plen = p.length := rfl
@[simp] theorem latch_w (o : Op) (a p : BitSeq) : (s.latch o a p).w = s.w := rfl
@[simp] theorem latch_pos (o : Op) (a p : BitSeq) : (s.latch o a p).pos = s.pos := rfl
@[simp] theorem latch_err (o : Op) (a p : BitSeq) : (s.latch o a p).err = s.err := rfl
@[simp] theorem latch_ok (o : Op) (a p : BitSeq) : (s.latch o a p).ok = s.ok := rfl
@[simp] theorem latch_r (o : Op) (a p : BitSeq) : (s.latch o a p).r = s.r := rfl
@[simp] theorem latch_rlen (o : Op) (a p : BitSeq) : (s.latch o a p).rlen = s.rlen := rfl
@[simp] theorem latch_cw (o : Op) (a p : BitSeq) : (s.latch o a p).cw = s.cw := rfl
@[simp] theorem latch_cwlen (o : Op) (a p : BitSeq) : (s.latch o a p).cwlen = s.cwlen := rfl
@[simp] theorem latch_script (o : Op) (a p : BitSeq) : (s.latch o a p).script = s.script := rfl
@[simp] theorem latch_delivered (o : Op) (a p : BitSeq) : (s.latch o a p).delivered = s.delivered := rfl
@[simp] theorem latch_free (o : Op) (a p : BitSeq) : (s.latch o a p).free = s.free := rfl

@[simp] theorem takeFault_params (e : ReqFault) : (s.takeFault e).params = s.params := rfl
@[simp] theorem takeFault_phase (e : ReqFault) : (s.takeFault e).phase = .done := rfl
@[simp] theorem takeFault_op (e : ReqFault) : (s.takeFault e).op = s.op := rfl
@[simp] theorem takeFault_a (e : ReqFault) : (s.takeFault e).a = s.a := rfl
@[simp] theorem takeFault_alen (e : ReqFault) : (s.takeFault e).alen = s.alen := rfl
@[simp] theorem takeFault_p (e : ReqFault) : (s.takeFault e).p = s.p := rfl
@[simp] theorem takeFault_plen (e : ReqFault) : (s.takeFault e).plen = s.plen := rfl
@[simp] theorem takeFault_w (e : ReqFault) : (s.takeFault e).w = s.w := rfl
@[simp] theorem takeFault_pos (e : ReqFault) : (s.takeFault e).pos = s.pos := rfl
@[simp] theorem takeFault_err (e : ReqFault) : (s.takeFault e).err = faultCode e := rfl
@[simp] theorem takeFault_ok (e : ReqFault) : (s.takeFault e).ok = false := rfl
@[simp] theorem takeFault_r (e : ReqFault) : (s.takeFault e).r = s.r := rfl
@[simp] theorem takeFault_rlen (e : ReqFault) : (s.takeFault e).rlen = 0 := rfl
@[simp] theorem takeFault_cw (e : ReqFault) : (s.takeFault e).cw = s.cw := rfl
@[simp] theorem takeFault_cwlen (e : ReqFault) : (s.takeFault e).cwlen = 0 := rfl
@[simp] theorem takeFault_script (e : ReqFault) : (s.takeFault e).script = s.script := rfl
@[simp] theorem takeFault_delivered (e : ReqFault) : (s.takeFault e).delivered = s.delivered := rfl
@[simp] theorem takeFault_free (e : ReqFault) : (s.takeFault e).free = s.free := rfl

@[simp] theorem collect_params : (s.collect).params = s.params := rfl
@[simp] theorem collect_phase : (s.collect).phase = .idle := rfl
@[simp] theorem collect_op : (s.collect).op = s.op := rfl
@[simp] theorem collect_a : (s.collect).a = s.a := rfl
@[simp] theorem collect_alen : (s.collect).alen = s.alen := rfl
@[simp] theorem collect_p : (s.collect).p = s.p := rfl
@[simp] theorem collect_plen : (s.collect).plen = s.plen := rfl
@[simp] theorem collect_w : (s.collect).w = s.w := rfl
@[simp] theorem collect_pos : (s.collect).pos = s.pos := rfl
@[simp] theorem collect_err : (s.collect).err = s.err := rfl
@[simp] theorem collect_ok : (s.collect).ok = s.ok := rfl
@[simp] theorem collect_r : (s.collect).r = s.r := rfl
@[simp] theorem collect_rlen : (s.collect).rlen = s.rlen := rfl
@[simp] theorem collect_cw : (s.collect).cw = s.cw := rfl
@[simp] theorem collect_cwlen : (s.collect).cwlen = s.cwlen := rfl
@[simp] theorem collect_script : (s.collect).script = s.script := rfl
@[simp] theorem collect_delivered : (s.collect).delivered = s.delivered ++ [s.response] := rfl
@[simp] theorem collect_free : (s.collect).free = s.free := rfl

@[simp] theorem divide_params (d v : BitSeq) : (s.divide d v).params = s.params := rfl
@[simp] theorem divide_phase (d v : BitSeq) : (s.divide d v).phase = s.phase := rfl
@[simp] theorem divide_op (d v : BitSeq) : (s.divide d v).op = s.op := rfl
@[simp] theorem divide_a (d v : BitSeq) : (s.divide d v).a = s.a := rfl
@[simp] theorem divide_alen (d v : BitSeq) : (s.divide d v).alen = s.alen := rfl
@[simp] theorem divide_p (d v : BitSeq) : (s.divide d v).p = s.p := rfl
@[simp] theorem divide_plen (d v : BitSeq) : (s.divide d v).plen = s.plen := rfl
@[simp] theorem divide_w (d v : BitSeq) : (s.divide d v).w = finalWindow d v := rfl
@[simp] theorem divide_pos (d v : BitSeq) : (s.divide d v).pos = d.length := rfl
@[simp] theorem divide_err (d v : BitSeq) : (s.divide d v).err = s.err := rfl
@[simp] theorem divide_ok (d v : BitSeq) : (s.divide d v).ok = s.ok := rfl
@[simp] theorem divide_r (d v : BitSeq) : (s.divide d v).r = s.r := rfl
@[simp] theorem divide_rlen (d v : BitSeq) : (s.divide d v).rlen = s.rlen := rfl
@[simp] theorem divide_cw (d v : BitSeq) : (s.divide d v).cw = s.cw := rfl
@[simp] theorem divide_cwlen (d v : BitSeq) : (s.divide d v).cwlen = s.cwlen := rfl
@[simp] theorem divide_script (d v : BitSeq) : (s.divide d v).script = s.script := rfl
@[simp] theorem divide_delivered (d v : BitSeq) : (s.divide d v).delivered = s.delivered := rfl
@[simp] theorem divide_free (d v : BitSeq) : (s.divide d v).free = s.free := rfl

@[simp] theorem toDone_params : (s.toDone).params = s.params := rfl
@[simp] theorem toDone_phase : (s.toDone).phase = .done := rfl
@[simp] theorem toDone_op : (s.toDone).op = s.op := rfl
@[simp] theorem toDone_a : (s.toDone).a = s.a := rfl
@[simp] theorem toDone_alen : (s.toDone).alen = s.alen := rfl
@[simp] theorem toDone_p : (s.toDone).p = s.p := rfl
@[simp] theorem toDone_plen : (s.toDone).plen = s.plen := rfl
@[simp] theorem toDone_w : (s.toDone).w = s.w := rfl
@[simp] theorem toDone_pos : (s.toDone).pos = s.pos := rfl
@[simp] theorem toDone_err : (s.toDone).err = s.err := rfl
@[simp] theorem toDone_ok : (s.toDone).ok = s.ok := rfl
@[simp] theorem toDone_r : (s.toDone).r = s.r := rfl
@[simp] theorem toDone_rlen : (s.toDone).rlen = s.rlen := rfl
@[simp] theorem toDone_cw : (s.toDone).cw = s.cw := rfl
@[simp] theorem toDone_cwlen : (s.toDone).cwlen = s.cwlen := rfl
@[simp] theorem toDone_script : (s.toDone).script = s.script := rfl
@[simp] theorem toDone_delivered : (s.toDone).delivered = s.delivered := rfl
@[simp] theorem toDone_free : (s.toDone).free = s.free := rfl

@[simp] theorem tick_params : (s.tick).params = s.params := rfl
@[simp] theorem tick_phase : (s.tick).phase = s.phase := rfl
@[simp] theorem tick_op : (s.tick).op = s.op := rfl
@[simp] theorem tick_a : (s.tick).a = s.a := rfl
@[simp] theorem tick_alen : (s.tick).alen = s.alen := rfl
@[simp] theorem tick_p : (s.tick).p = s.p := rfl
@[simp] theorem tick_plen : (s.tick).plen = s.plen := rfl
@[simp] theorem tick_w : (s.tick).w = s.w := rfl
@[simp] theorem tick_pos : (s.tick).pos = s.pos := rfl
@[simp] theorem tick_err : (s.tick).err = s.err := rfl
@[simp] theorem tick_ok : (s.tick).ok = s.ok := rfl
@[simp] theorem tick_r : (s.tick).r = s.r := rfl
@[simp] theorem tick_rlen : (s.tick).rlen = s.rlen := rfl
@[simp] theorem tick_cw : (s.tick).cw = s.cw := rfl
@[simp] theorem tick_cwlen : (s.tick).cwlen = s.cwlen := rfl
@[simp] theorem tick_script : (s.tick).script = s.script.tail := rfl
@[simp] theorem tick_delivered : (s.tick).delivered = s.delivered := rfl
@[simp] theorem tick_free : (s.tick).free = s.free + 1 := rfl

@[simp] theorem advance_params : (advance s).params = s.params := rfl
@[simp] theorem advance_phase : (advance s).phase = s.phase := rfl
@[simp] theorem advance_op : (advance s).op = s.op := rfl
@[simp] theorem advance_a : (advance s).a = s.a := rfl
@[simp] theorem advance_alen : (advance s).alen = s.alen := rfl
@[simp] theorem advance_p : (advance s).p = s.p := rfl
@[simp] theorem advance_plen : (advance s).plen = s.plen := rfl
@[simp] theorem advance_w : (advance s).w = shiftin (condxor s.w s.p) (s.dbit s.pos) := rfl
@[simp] theorem advance_pos : (advance s).pos = s.pos + 1 := rfl
@[simp] theorem advance_err : (advance s).err = s.err := rfl
@[simp] theorem advance_ok : (advance s).ok = s.ok := rfl
@[simp] theorem advance_r : (advance s).r = s.r := rfl
@[simp] theorem advance_rlen : (advance s).rlen = s.rlen := rfl
@[simp] theorem advance_cw : (advance s).cw = s.cw := rfl
@[simp] theorem advance_cwlen : (advance s).cwlen = s.cwlen := rfl
@[simp] theorem advance_script : (advance s).script = s.script := rfl
@[simp] theorem advance_delivered : (advance s).delivered = s.delivered := rfl
@[simp] theorem advance_free : (advance s).free = s.free := rfl

@[simp] theorem storeRem_params (v : BitSeq) : (storeRem v s).params = s.params := rfl
@[simp] theorem storeRem_phase (v : BitSeq) : (storeRem v s).phase = s.phase := rfl
@[simp] theorem storeRem_op (v : BitSeq) : (storeRem v s).op = s.op := rfl
@[simp] theorem storeRem_a (v : BitSeq) : (storeRem v s).a = s.a := rfl
@[simp] theorem storeRem_alen (v : BitSeq) : (storeRem v s).alen = s.alen := rfl
@[simp] theorem storeRem_p (v : BitSeq) : (storeRem v s).p = s.p := rfl
@[simp] theorem storeRem_plen (v : BitSeq) : (storeRem v s).plen = s.plen := rfl
@[simp] theorem storeRem_w (v : BitSeq) : (storeRem v s).w = s.w := rfl
@[simp] theorem storeRem_pos (v : BitSeq) : (storeRem v s).pos = s.pos := rfl
@[simp] theorem storeRem_err (v : BitSeq) : (storeRem v s).err = noFault := rfl
@[simp] theorem storeRem_ok (v : BitSeq) : (storeRem v s).ok = false := rfl
@[simp] theorem storeRem_r (v : BitSeq) : (storeRem v s).r = v := rfl
@[simp] theorem storeRem_rlen (v : BitSeq) : (storeRem v s).rlen = s.plen - 1 := rfl
@[simp] theorem storeRem_cw (v : BitSeq) : (storeRem v s).cw = s.cw := rfl
@[simp] theorem storeRem_cwlen (v : BitSeq) : (storeRem v s).cwlen = 0 := rfl
@[simp] theorem storeRem_script (v : BitSeq) : (storeRem v s).script = s.script := rfl
@[simp] theorem storeRem_delivered (v : BitSeq) : (storeRem v s).delivered = s.delivered := rfl
@[simp] theorem storeRem_free (v : BitSeq) : (storeRem v s).free = s.free := rfl

@[simp] theorem storeGen_params (v : BitSeq) : (storeGen v s).params = s.params := rfl
@[simp] theorem storeGen_phase (v : BitSeq) : (storeGen v s).phase = s.phase := rfl
@[simp] theorem storeGen_op (v : BitSeq) : (storeGen v s).op = s.op := rfl
@[simp] theorem storeGen_a (v : BitSeq) : (storeGen v s).a = s.a := rfl
@[simp] theorem storeGen_alen (v : BitSeq) : (storeGen v s).alen = s.alen := rfl
@[simp] theorem storeGen_p (v : BitSeq) : (storeGen v s).p = s.p := rfl
@[simp] theorem storeGen_plen (v : BitSeq) : (storeGen v s).plen = s.plen := rfl
@[simp] theorem storeGen_w (v : BitSeq) : (storeGen v s).w = s.w := rfl
@[simp] theorem storeGen_pos (v : BitSeq) : (storeGen v s).pos = s.pos := rfl
@[simp] theorem storeGen_err (v : BitSeq) : (storeGen v s).err = noFault := rfl
@[simp] theorem storeGen_ok (v : BitSeq) : (storeGen v s).ok = false := rfl
@[simp] theorem storeGen_r (v : BitSeq) : (storeGen v s).r = v := rfl
@[simp] theorem storeGen_rlen (v : BitSeq) : (storeGen v s).rlen = s.plen - 1 := rfl
@[simp] theorem storeGen_cw (v : BitSeq) : (storeGen v s).cw = s.cw := rfl
@[simp] theorem storeGen_cwlen (v : BitSeq) : (storeGen v s).cwlen = 0 := rfl
@[simp] theorem storeGen_script (v : BitSeq) : (storeGen v s).script = s.script := rfl
@[simp] theorem storeGen_delivered (v : BitSeq) : (storeGen v s).delivered = s.delivered := rfl
@[simp] theorem storeGen_free (v : BitSeq) : (storeGen v s).free = s.free := rfl

@[simp] theorem storeEnc_params (v : BitSeq) : (storeEnc v s).params = s.params := rfl
@[simp] theorem storeEnc_phase (v : BitSeq) : (storeEnc v s).phase = s.phase := rfl
@[simp] theorem storeEnc_op (v : BitSeq) : (storeEnc v s).op = s.op := rfl
@[simp] theorem storeEnc_a (v : BitSeq) : (storeEnc v s).a = s.a := rfl
@[simp] theorem storeEnc_alen (v : BitSeq) : (storeEnc v s).alen = s.alen := rfl
@[simp] theorem storeEnc_p (v : BitSeq) : (storeEnc v s).p = s.p := rfl
@[simp] theorem storeEnc_plen (v : BitSeq) : (storeEnc v s).plen = s.plen := rfl
@[simp] theorem storeEnc_w (v : BitSeq) : (storeEnc v s).w = s.w := rfl
@[simp] theorem storeEnc_pos (v : BitSeq) : (storeEnc v s).pos = s.pos := rfl
@[simp] theorem storeEnc_err (v : BitSeq) : (storeEnc v s).err = noFault := rfl
@[simp] theorem storeEnc_ok (v : BitSeq) : (storeEnc v s).ok = false := rfl
@[simp] theorem storeEnc_r (v : BitSeq) : (storeEnc v s).r = v := rfl
@[simp] theorem storeEnc_rlen (v : BitSeq) : (storeEnc v s).rlen = s.plen - 1 := rfl
@[simp] theorem storeEnc_cw (v : BitSeq) : (storeEnc v s).cw = s.a ++ v := rfl
@[simp] theorem storeEnc_cwlen (v : BitSeq) : (storeEnc v s).cwlen = s.alen + s.plen - 1 := rfl
@[simp] theorem storeEnc_script (v : BitSeq) : (storeEnc v s).script = s.script := rfl
@[simp] theorem storeEnc_delivered (v : BitSeq) : (storeEnc v s).delivered = s.delivered := rfl
@[simp] theorem storeEnc_free (v : BitSeq) : (storeEnc v s).free = s.free := rfl

@[simp] theorem storeVer_params (v : BitSeq) : (storeVer v s).params = s.params := rfl
@[simp] theorem storeVer_phase (v : BitSeq) : (storeVer v s).phase = s.phase := rfl
@[simp] theorem storeVer_op (v : BitSeq) : (storeVer v s).op = s.op := rfl
@[simp] theorem storeVer_a (v : BitSeq) : (storeVer v s).a = s.a := rfl
@[simp] theorem storeVer_alen (v : BitSeq) : (storeVer v s).alen = s.alen := rfl
@[simp] theorem storeVer_p (v : BitSeq) : (storeVer v s).p = s.p := rfl
@[simp] theorem storeVer_plen (v : BitSeq) : (storeVer v s).plen = s.plen := rfl
@[simp] theorem storeVer_w (v : BitSeq) : (storeVer v s).w = s.w := rfl
@[simp] theorem storeVer_pos (v : BitSeq) : (storeVer v s).pos = s.pos := rfl
@[simp] theorem storeVer_err (v : BitSeq) : (storeVer v s).err = noFault := rfl
@[simp] theorem storeVer_ok (v : BitSeq) : (storeVer v s).ok = verdict v := rfl
@[simp] theorem storeVer_r (v : BitSeq) : (storeVer v s).r = s.r := rfl
@[simp] theorem storeVer_rlen (v : BitSeq) : (storeVer v s).rlen = 0 := rfl
@[simp] theorem storeVer_cw (v : BitSeq) : (storeVer v s).cw = s.cw := rfl
@[simp] theorem storeVer_cwlen (v : BitSeq) : (storeVer v s).cwlen = 0 := rfl
@[simp] theorem storeVer_script (v : BitSeq) : (storeVer v s).script = s.script := rfl
@[simp] theorem storeVer_delivered (v : BitSeq) : (storeVer v s).delivered = s.delivered := rfl
@[simp] theorem storeVer_free (v : BitSeq) : (storeVer v s).free = s.free := rfl

@[simp] theorem hardReset_params : (s.hardReset).params = s.params := rfl
@[simp] theorem hardReset_phase : (s.hardReset).phase = State.reset.phase := rfl
@[simp] theorem hardReset_op : (s.hardReset).op = State.reset.op := rfl
@[simp] theorem hardReset_a : (s.hardReset).a = State.reset.a := rfl
@[simp] theorem hardReset_alen : (s.hardReset).alen = State.reset.alen := rfl
@[simp] theorem hardReset_p : (s.hardReset).p = State.reset.p := rfl
@[simp] theorem hardReset_plen : (s.hardReset).plen = State.reset.plen := rfl
@[simp] theorem hardReset_w : (s.hardReset).w = State.reset.w := rfl
@[simp] theorem hardReset_pos : (s.hardReset).pos = State.reset.pos := rfl
@[simp] theorem hardReset_err : (s.hardReset).err = State.reset.err := rfl
@[simp] theorem hardReset_ok : (s.hardReset).ok = State.reset.ok := rfl
@[simp] theorem hardReset_r : (s.hardReset).r = State.reset.r := rfl
@[simp] theorem hardReset_rlen : (s.hardReset).rlen = State.reset.rlen := rfl
@[simp] theorem hardReset_cw : (s.hardReset).cw = State.reset.cw := rfl
@[simp] theorem hardReset_cwlen : (s.hardReset).cwlen = State.reset.cwlen := rfl
@[simp] theorem hardReset_script : (s.hardReset).script = s.script := rfl
@[simp] theorem hardReset_delivered : (s.hardReset).delivered = s.delivered := rfl
@[simp] theorem hardReset_free : (s.hardReset).free = s.free := rfl

@[simp] theorem later_params (n : Nat) : (Safety.later n s).params = s.params := rfl
@[simp] theorem later_phase (n : Nat) : (Safety.later n s).phase = s.phase := rfl
@[simp] theorem later_op (n : Nat) : (Safety.later n s).op = s.op := rfl
@[simp] theorem later_a (n : Nat) : (Safety.later n s).a = s.a := rfl
@[simp] theorem later_alen (n : Nat) : (Safety.later n s).alen = s.alen := rfl
@[simp] theorem later_p (n : Nat) : (Safety.later n s).p = s.p := rfl
@[simp] theorem later_plen (n : Nat) : (Safety.later n s).plen = s.plen := rfl
@[simp] theorem later_w (n : Nat) : (Safety.later n s).w = s.w := rfl
@[simp] theorem later_pos (n : Nat) : (Safety.later n s).pos = s.pos := rfl
@[simp] theorem later_err (n : Nat) : (Safety.later n s).err = s.err := rfl
@[simp] theorem later_ok (n : Nat) : (Safety.later n s).ok = s.ok := rfl
@[simp] theorem later_r (n : Nat) : (Safety.later n s).r = s.r := rfl
@[simp] theorem later_rlen (n : Nat) : (Safety.later n s).rlen = s.rlen := rfl
@[simp] theorem later_cw (n : Nat) : (Safety.later n s).cw = s.cw := rfl
@[simp] theorem later_cwlen (n : Nat) : (Safety.later n s).cwlen = s.cwlen := rfl
@[simp] theorem later_script (n : Nat) : (Safety.later n s).script = s.script.drop n := rfl
@[simp] theorem later_delivered (n : Nat) : (Safety.later n s).delivered = s.delivered := rfl
@[simp] theorem later_free (n : Nat) : (Safety.later n s).free = s.free + n := rfl

end Sys2Proof.Laws
end

