-- ==== Sys2Proof/Laws/Step.lean ====
section
/-! SUPPORT. One lemma for each shared operation that says all it can do: the check, `exec`, the block's step and the
machine's step. -/

namespace Sys2Proof.Laws

open Sys2Proof.Machine

/-! ### The dividend view -/

/-- R52: the dividend view of a request has length `N`. -/
theorem view_length {o : Op} {a p : BitSeq} (h : 1 ≤ p.length) :
    (view o a p).length = viewLen o a.length p.length := by
  cases o <;> simp only [view, viewLen, List.length_append, zeros_length] <;> omega

/-- R52: bit `i` of the dividend view; the padding reads 0. -/
theorem view_getD (o : Op) (a p : BitSeq) (i : Nat) :
    (view o a p).getD i false = if i < a.length then a.getD i false else false := by
  have plain : a.getD i false = if i < a.length then a.getD i false else false := by
    split
    · rfl
    · rename_i h; simp [List.getD, List.getElem?_eq_none (Nat.not_lt.mp h)]
  have pad : ∀ n, (a ++ BitSeq.zeros n).getD i false = if i < a.length then a.getD i false else false := by
    intro n
    split
    · rename_i h; simp [List.getD, List.getElem?_append_left h]
    · rename_i h
      have := zeros_getD n (i - a.length)
      simpa [List.getD, List.getElem?_append_right (Nat.not_lt.mp h)] using this
  cases o
  · exact plain
  · exact pad _
  · exact pad _
  · exact plain

/-- R142: what a passed check says; R182's condition is the negation of `exceedsCapacity`. -/
theorem check_eq_none_iff {c : Config.Params} {o : Op} {m k : Nat} :
    check c o m k = none ↔ kmin o ≤ k ∧ k ≤ viewLen o m k ∧ exceedsCapacity c (viewLen o m k) k = false := by
  unfold check
  split
  · simp; omega
  · split
    · simp; omega
    · split
      · simp_all
      · simp_all

/-- R142, R186: what a failed check says, in the order of the tests. -/
theorem check_eq_some_iff {c : Config.Params} {o : Op} {m k : Nat} {e : ReqFault} :
    check c o m k = some e ↔
      (k < kmin o ∧ e = .invalidInputLength) ∨
      (kmin o ≤ k ∧ viewLen o m k < k ∧ e = .invalidInputLength) ∨
      (kmin o ≤ k ∧ k ≤ viewLen o m k ∧ exceedsCapacity c (viewLen o m k) k = true ∧ e = .capacityExceeded) := by
  unfold check
  rcases Nat.lt_or_ge k (kmin o) with h1 | h1
  · cases e <;> simp [h1, Nat.not_le.mpr h1]
  rcases Nat.lt_or_ge (viewLen o m k) k with h2 | h2
  · cases e <;> simp [h1, h2, Nat.not_lt.mpr h1, Nat.not_le.mpr h2]
  · cases e <;> simp [h1, h2, Nat.not_lt.mpr h1, Nat.not_lt.mpr h2]

theorem exceedsCapacity_eq_true {c : Config.Params} {n k : Nat} :
    exceedsCapacity c n k = true ↔ c.maxN.exceededBy n = true ∨ c.maxK.exceededBy k = true := by
  simp [exceedsCapacity]

theorem exceedsCapacity_eq_false {c : Config.Params} {n k : Nat} :
    exceedsCapacity c n k = false ↔ c.maxN.exceededBy n = false ∧ c.maxK.exceededBy k = false := by
  simp [exceedsCapacity]

theorem one_le_kmin (o : Op) : 1 ≤ kmin o := by cases o <;> decide

/-- R142: when the check passes, the precondition of `mod2rem` holds. -/
theorem lengths_of_valid {c : Config.Params} {i : Instr} (h : checkInstr c i = none) :
    1 ≤ i.p.length ∧ i.p.length ≤ (view i.op i.a i.p).length := by
  have hc := check_eq_none_iff.mp h
  have hk := one_le_kmin i.op
  have h1 : 1 ≤ i.p.length := by omega
  exact ⟨h1, by rw [view_length h1]; exact hc.2.1⟩

/-! ### The request through the pins of the ports -/

@[simp] theorem throughPort_length (cap : Config.Capacity) (noPin : Nat → Bool) (port : BitSeq) (len : Nat) :
    (throughPort cap noPin port len).length = len := by simp [throughPort]

/-- R30: a port with a pin for every bit of the operand brings the operand (R72). -/
theorem throughPort_of_fits {cap : Config.Capacity} (noPin : Nat → Bool) (port : BitSeq) {len : Nat}
    (h : cap.exceededBy len = false) : throughPort cap noPin port len = assemble port len := by
  refine List.map_congr_left fun i hi => if_pos ?_
  have hi := List.mem_range.mp hi
  cases cap with
  | unbounded => rfl
  | bits m =>
    simp only [Config.Capacity.exceededBy, decide_eq_false_iff_not] at h
    simp only [Config.Capacity.hasPin, Config.Capacity.exceededBy, Bool.not_eq_true', decide_eq_false_iff_not]
    omega

/-- R30: an operand bit with a pin is that pin's level. -/
theorem throughPort_getD {cap : Config.Capacity} {noPin : Nat → Bool} {port : BitSeq} {len i : Nat} (hi : i < len)
    (h : cap.hasPin i = true) : (throughPort cap noPin port len).getD i false = port.getD i false := by
  simp [throughPort, List.getD, hi, h]

/-- R30: levels at indices without a pin, or at and beyond the length, are not read. -/
theorem throughPort_congr {cap : Config.Capacity} {noPin : Nat → Bool} {port port' : BitSeq} {len : Nat}
    (h : ∀ i, i < len → cap.hasPin i = true → port.getD i false = port'.getD i false) :
    throughPort cap noPin port len = throughPort cap noPin port' len := by
  refine List.map_congr_left fun i hi => ?_
  by_cases hp : cap.hasPin i = true
  · rw [if_pos hp, if_pos hp, h i (List.mem_range.mp hi) hp]
  · rw [if_neg hp, if_neg hp]

theorem exceededBy_of_le {cap : Config.Capacity} {m n : Nat} (h : m ≤ n) (hn : cap.exceededBy n = false) :
    cap.exceededBy m = false := by
  cases cap with
  | unbounded => rfl
  | bits k => simp only [Config.Capacity.exceededBy, decide_eq_false_iff_not] at hn ⊢; omega

/-- What the ports bring, whatever their widths: the operation, and operands of the lengths on the length ports. -/
theorem request_eq (s : State) :
    s.request = Instr.ofParts (opOfCode s.drive.req.op)
      (throughPort s.params.maxN (Config.reqAWithoutPin s.free) s.drive.req.a s.drive.req.alen)
      (throughPort s.params.maxK (Config.reqPWithoutPin s.free) s.drive.req.p s.drive.req.plen) := by
  have whole (cap : Config.Capacity) (noPin : Nat → Bool) (port : BitSeq) (len : Nat) :
      assemble (throughPort cap noPin port len) len = throughPort cap noPin port len :=
    (congrArg _ (throughPort_length ..).symm).trans (assemble_self _)
  simp only [State.request, decode, throughPins, whole]

/-- R185: the check of a request does not depend on the widths of the ports. -/
theorem checkInstr_request (c : Config.Params) (s : State) :
    checkInstr c s.request = checkInstr c (decode s.drive.req) := by
  simp only [checkInstr, request_eq, op_ofParts, a_ofParts, p_ofParts, decode_op, decode_a, decode_p,
    throughPort_length, assemble_length]

/-- R30, R182: a request that fits the storage has a pin for every bit. -/
theorem request_of_valid {s : State} (h : checkInstr s.params s.request = none) : s.request = decode s.drive.req := by
  rw [checkInstr_request] at h
  have hc := check_eq_none_iff.mp h
  rw [decode_op, decode_a, decode_p, assemble_length, assemble_length, exceedsCapacity_eq_false] at hc
  have hk := one_le_kmin (opOfCode s.drive.req.op)
  have hm : s.drive.req.alen ≤ viewLen (opOfCode s.drive.req.op) s.drive.req.alen s.drive.req.plen := by
    cases ho : opOfCode s.drive.req.op <;> rw [ho] at hc hk <;> simp only [viewLen] <;> omega
  rw [request_eq, throughPort_of_fits _ _ hc.2.2.2, throughPort_of_fits _ _ (exceededBy_of_le hm hc.2.2.1)]
  rfl

/-! ### The state on the host's side -/

/-- What holds of the next `n + 1` drives, and of all-low ones, holds of this drive and the next `n`. -/
theorem drive_and_tail {s : State} {good : Drive → Prop} {n : Nat}
    (h : ∀ d ∈ s.script.take (n + 1), good d) (low : good Drive.low) :
    good s.drive ∧ ∀ d ∈ s.script.tail.take n, good d := by
  unfold State.drive
  cases hs : s.script with
  | nil => simpa using low
  | cons d rest => rw [hs] at h; simpa using h

/-- R153: the premise that the host drives no RESET, one step on. -/
theorem noReset_succ {s : State} {n : Nat} (h : Safety.NoReset s (n + 1)) :
    s.drive.rst = false ∧ Safety.NoReset s.tick n :=
  drive_and_tail h rfl

@[simp] theorem tick_drive_free (s : State) (f : Nat) : ({ s with free := f } : State).drive = s.drive := rfl

@[simp] theorem later_zero (s : State) : Safety.later 0 s = s := rfl

theorem later_one (s : State) : Safety.later 1 s = s.tick := by
  simp [Safety.later, State.tick]

theorem later_later (m n : Nat) (s : State) : Safety.later m (Safety.later n s) = Safety.later (n + m) s := by
  simp [Safety.later, List.drop_drop, Nat.add_assoc]

/-! ### `exec` -/

/-- R216: outside `IDLE` no request is taken. -/
theorem exec_busy {s : State} (h : s.phase ≠ .idle) (i : Instr) : exec i s = .next s := by
  cases i <;> simp [exec, execRem, execGen, execEnc, execVer, State.whenIdle, h]

/-- R187: the state in which a request that fails the check leaves the block. -/
theorem exec_of_fault {s : State} {i : Instr} {e : ReqFault} (hi : s.phase = .idle)
    (h : checkInstr s.params i = some e) : exec i s = .next ((s.latch i.op i.a i.p).takeFault e) := by
  have hc := check_eq_some_iff.mp h
  have hN : ∀ {m k : Nat}, 2 ≤ k → m + (k - 1) = m + k - 1 := by omega
  cases i <;>
    simp only [Instr.op, Instr.a, Instr.p, kmin, viewLen] at hc <;>
    simp only [exec, execRem, execGen, execEnc, execVer, State.whenIdle, hi, if_true, padded, List.length_append,
      zeros_length, Instr.op, Instr.a, Instr.p]
  case rem a p =>
    obtain ⟨h1, rfl⟩ | ⟨h1, h2, rfl⟩ | ⟨h1, h2, h3, rfl⟩ := hc
    · rw [if_pos h1]
    · rw [if_neg (by omega), if_pos h2]
    · rw [if_neg (by omega), if_neg (by omega), if_pos h3]
  case gen a p =>
    obtain ⟨h1, rfl⟩ | ⟨h1, h2, rfl⟩ | ⟨h1, h2, h3, rfl⟩ := hc
    · rw [if_pos h1]
    · rw [hN h1, if_neg (by omega), if_pos h2]
    · rw [hN h1, if_neg (by omega), if_neg (by omega), if_pos h3]
  case enc a p =>
    obtain ⟨h1, rfl⟩ | ⟨h1, h2, rfl⟩ | ⟨h1, h2, h3, rfl⟩ := hc
    · rw [if_pos h1]
    · rw [hN h1, if_neg (by omega), if_pos h2]
    · rw [hN h1, if_neg (by omega), if_neg (by omega), if_pos h3]
  case ver a p =>
    obtain ⟨h1, rfl⟩ | ⟨h1, h2, rfl⟩ | ⟨h1, h2, h3, rfl⟩ := hc
    · rw [if_pos h1]
    · rw [if_neg (by omega), if_pos h2]
    · rw [if_neg (by omega), if_neg (by omega), if_pos h3]

/-- R141: the state in which a request that passes the check leaves the block: the division done, its response stored. -/
theorem exec_of_valid {s : State} {i : Instr} (hi : s.phase = .idle) (h : checkInstr s.params i = none) :
    exec i s = .next (storeResult (mod2rem (view i.op i.a i.p) i.p)
      ((s.latch i.op i.a i.p).divide (view i.op i.a i.p) i.p)).toDone := by
  have hc := check_eq_none_iff.mp h
  cases i <;>
    simp only [Instr.op, Instr.a, Instr.p, kmin, viewLen] at hc <;>
    obtain ⟨h1, h2, h3⟩ := hc <;>
    simp only [exec, execRem, execGen, execEnc, execVer, State.whenIdle, hi, if_true, padded, List.length_append,
      zeros_length, Instr.op, Instr.a, Instr.p, storeResult, divide_op, latch_op, opOfCode_codeOfOp, view]
  case rem a p => simp [Nat.not_lt.mpr h1, Nat.not_lt.mpr h2, h3]
  case gen a p =>
    have hN : a.length + (p.length - 1) = a.length + p.length - 1 := by omega
    simp [hN, Nat.not_lt.mpr h1, Nat.not_lt.mpr h2, h3]
  case enc a p =>
    have hN : a.length + (p.length - 1) = a.length + p.length - 1 := by omega
    simp [hN, Nat.not_lt.mpr h1, Nat.not_lt.mpr h2, h3]
  case ver a p => simp [Nat.not_lt.mpr h1, Nat.not_lt.mpr h2, h3]

/-- All that `exec` can do in `IDLE` (R141). -/
theorem exec_cases {s : State} (i : Instr) (hi : s.phase = .idle) :
    (∃ e, checkInstr s.params i = some e ∧ exec i s = .next ((s.latch i.op i.a i.p).takeFault e)) ∨
    (checkInstr s.params i = none ∧ exec i s = .next (storeResult (mod2rem (view i.op i.a i.p) i.p)
      ((s.latch i.op i.a i.p).divide (view i.op i.a i.p) i.p)).toDone) := by
  cases h : checkInstr s.params i with
  | some e => exact .inl ⟨e, rfl, exec_of_fault hi h⟩
  | none => exact .inr ⟨rfl, exec_of_valid hi h⟩

/-- `exec` reads nothing of the host's side. -/
theorem exec_later {i : Instr} {s t : State} (n : Nat) (h : exec i s = .next t) :
    exec i (Safety.later n s) = .next (Safety.later n t) := by
  by_cases hi : s.phase = .idle
  · cases hc : checkInstr s.params i with
    | some e =>
      rw [exec_of_fault hi hc] at h
      cases h
      rw [exec_of_fault (s := Safety.later n s) hi hc]
      rfl
    | none =>
      rw [exec_of_valid hi hc] at h
      cases h
      rw [exec_of_valid (s := Safety.later n s) hi hc]
      cases i <;> rfl
  · rw [exec_busy hi] at h
    cases h
    exact exec_busy (s := Safety.later n s) hi i

/-! ### The steps of the block -/

/-- R143, on a request that fails the check. -/
theorem submit_of_fault {s : State} {i : Instr} {e : ReqFault} (h : checkInstr s.params i = some e) :
    submit i s = (s.latch i.op i.a i.p).takeFault e := by
  simp only [submit, h]

/-- R143, on a request that passes it. -/
theorem submit_of_valid {s : State} {i : Instr} (h : checkInstr s.params i = none) :
    submit i s = { s.latch i.op i.a i.p with
      w := (view i.op i.a i.p).take i.p.length, pos := i.p.length, phase := .run } := by
  simp only [submit, h]

/-- SUBMIT touches neither the parameters nor the host's side. -/
theorem submit_frame (i : Instr) (s : State) :
    (submit i s).params = s.params ∧ (submit i s).script = s.script ∧
      (submit i s).delivered = s.delivered ∧ (submit i s).free = s.free := by
  unfold submit
  dsimp only
  split <;> simp

/-- R145: FINISH of each operation, as one record update. -/
theorem finish_eq (s : State) : finish s =
    (storeResult ((condxor s.w s.p).drop 1) { s with w := condxor s.w s.p }).toDone := rfl

/-- What FINISH leaves unchanged, under every operation. -/
theorem finish_frame (s : State) :
    (finish s).params = s.params ∧ (finish s).op = s.op ∧ (finish s).a = s.a ∧ (finish s).alen = s.alen ∧
      (finish s).p = s.p ∧ (finish s).plen = s.plen ∧ (finish s).pos = s.pos ∧ (finish s).script = s.script ∧
      (finish s).delivered = s.delivered ∧ (finish s).free = s.free ∧ (finish s).phase = .done := by
  rw [finish_eq]
  unfold storeResult
  dsimp only
  split <;> simp

theorem finish_later (n : Nat) (s : State) : finish (Safety.later n s) = Safety.later n (finish s) := by
  rw [finish_eq, finish_eq]
  unfold storeResult
  dsimp only [Safety.later]
  split <;> rfl

theorem blockStep_of_advance {s : State} (h : windowReady s = true) (hl : s.pos < s.viewLen) :
    blockStep s = .next (advance s) := by
  simp [blockStep, h, hl]

theorem blockStep_of_finish {s : State} (h : windowReady s = true) (hl : s.pos = s.viewLen) :
    blockStep s = .next (finish s) := by
  simp [blockStep, h, hl]

/-- R144, R145, R148: what a block step can do. -/
theorem blockStep_cases (s : State) :
    (windowReady s = true ∧ s.pos < s.viewLen ∧ blockStep s = .next (advance s)) ∨
    (windowReady s = true ∧ s.pos = s.viewLen ∧ blockStep s = .next (finish s)) ∨
    (windowReady s = true ∧ s.viewLen < s.pos ∧ blockStep s = .fault .positionPastEnd) ∨
    (windowReady s = false ∧ blockStep s = .fault .windowMalformed) := by
  unfold blockStep
  by_cases hw : windowReady s = true
  · rcases Nat.lt_trichotomy s.pos s.viewLen with h | h | h
    · simp [hw, h]
    · simp [hw, h]
    · simp [hw, h, Nat.not_lt.mpr (Nat.le_of_lt h), Nat.ne_of_gt h]
  · simp [hw]

/-- R7, R147: what one step of the machine is, by the drive and the phase. -/
theorem step_eq (s : State) :
    step s =
      if s.drive.rst then .next s.tick.hardReset
      else match s.phase with
        | .idle => if s.drive.reqValid then takeRequest s.request s.tick else .next s.tick
        | .run => blockStep s.tick
        | .done => if s.drive.rspReady then .next s.tick.collect else .next s.tick := rfl

theorem step_of_reset {s : State} (h : s.drive.rst = true) : step s = .next s.tick.hardReset := by
  simp [step_eq, h]

theorem step_of_run {s : State} (h : s.drive.rst = false) (hp : s.phase = .run) : step s = blockStep s.tick := by
  simp [step_eq, h, hp]

theorem step_of_request {s : State} (hp : s.phase = .idle) (h : s.drive.rst = false)
    (hv : s.drive.reqValid = true) : step s = takeRequest s.request s.tick := by
  simp [step_eq, h, hp, hv]

theorem step_of_no_request {s : State} (hp : s.phase = .idle) (h : s.drive.rst = false)
    (hv : s.drive.reqValid = false) : step s = .next s.tick := by
  simp [step_eq, h, hp, hv]

theorem step_of_collect {s : State} (hp : s.phase = .done) (h : s.drive.rst = false)
    (hv : s.drive.rspReady = true) : step s = .next s.tick.collect := by
  simp [step_eq, h, hp, hv]

theorem step_of_hold {s : State} (hp : s.phase = .done) (h : s.drive.rst = false)
    (hv : s.drive.rspReady = false) : step s = .next s.tick := by
  simp [step_eq, h, hp, hv]

/-! ### Runs -/

theorem run_zero (s : State) : Sys2Proof.core.run 0 s = .next s := rfl

theorem run_succ (n : Nat) {s t : State} (h : step s = .next t) :
    Sys2Proof.core.run (n + 1) s = Sys2Proof.core.run n t := by
  have h' : Sys2Proof.core.step s = .next t := h
  simp only [Host.Core.run, h']

/-- A run in two parts. -/
theorem run_add (m n : Nat) {s t : State} (h : Sys2Proof.core.run m s = .next t) :
    Sys2Proof.core.run (m + n) s = Sys2Proof.core.run n t := by
  induction m generalizing s with
  | zero => cases h; rw [Nat.zero_add]
  | succ m ih =>
    rw [Nat.succ_add]
    cases hs : step s with
    | next u => rw [run_succ _ hs] at h ⊢; exact ih h
    | fault r => have h' : Sys2Proof.core.step s = .fault r := hs; simp [Host.Core.run, h'] at h
    | refused r => have h' : Sys2Proof.core.step s = .refused r := hs; simp [Host.Core.run, h'] at h

end Sys2Proof.Laws
end

