-- ==== Sys2Proof/Laws/Invariant.lean ====
section
/-! SUPPORT. What the invariant of `RUN` gives, and that SUBMIT sets it up and ADVANCE and FINISH use it. -/

namespace Sys2Proof.Laws

open Sys2Proof.Machine Sys2Proof.Safety

theorem latched_op (s : State) : s.latched.op = opOfCode s.op := op_ofParts _ _ _

theorem latched_a (s : State) : s.latched.a = s.a := a_ofParts _ _ _

theorem latched_p (s : State) : s.latched.p = s.p := p_ofParts _ _ _

/-- R54: in `RUN` the registers are ready for a block step. -/
theorem runInv_ready {s : State} (h : RunInv s) :
    windowReady s = true ∧ s.pos ≤ s.viewLen ∧ s.plen ≤ s.viewLen ∧ 1 ≤ s.plen := by
  obtain ⟨ha, hp, hc, -, hpos, hw⟩ := h
  have hl := check_eq_none_iff.mp hc
  have hk := one_le_kmin (opOfCode s.op)
  have h1 : 1 ≤ s.plen := by omega
  have hv : (view (opOfCode s.op) s.a s.p).length = s.viewLen := by
    rw [view_length (by omega), ha, hp]; rfl
  have hlen : s.w.length = s.plen := by
    rw [hw, windowAfter_length _ (by omega) (by rw [hv, hp]; exact hl.2.1), hp]
  exact ⟨by simp [windowReady, ha, hp, hlen, h1], hpos, hl.2.1, h1⟩

/-- R143: SUBMIT of a request that passes the check sets the invariant of `RUN` up, at round 0. -/
theorem submit_runInv {s : State} {i : Instr} (h : checkInstr s.params i = none) :
    (submit i s).phase = .run ∧ RunInv (submit i s) ∧ (submit i s).latched = i ∧ (submit i s).pos = i.p.length := by
  have hv := lengths_of_valid h
  have hc := check_eq_none_iff.mp h
  have hl := view_length (o := i.op) (a := i.a) hv.1
  rw [submit_of_valid h]
  refine ⟨rfl, ⟨rfl, rfl, ?_, ?_, ?_, ?_⟩, ?_, rfl⟩
  · simpa using check_eq_none_iff.mpr hc
  · simp
  · simp [State.viewLen]; omega
  · simp [windowAfter_zero]
  · simp [State.latched, ofParts_self]

/-- R144: ADVANCE is one round of the loop. -/
theorem advance_runInv {s : State} (h : RunInv s) (hl : s.pos < s.viewLen) : RunInv (advance s) := by
  have hr := runInv_ready h
  obtain ⟨ha, hp, hc, hk, -, hw⟩ := h
  have hv : (view (opOfCode s.op) s.a s.p).length = s.viewLen := by
    rw [view_length (by omega), ha, hp]; rfl
  refine ⟨ha, hp, hc, Nat.le_succ_of_le hk, hl, ?_⟩
  have hd : s.dbit s.pos = (view (opOfCode s.op) s.a s.p).getD s.pos false := by
    rw [view_getD, ha]; rfl
  simp only [advance_w, advance_op, advance_a, advance_p, advance_pos, advance_plen]
  rw [hw, show s.pos + 1 - s.plen = (s.pos - s.plen) + 1 by omega, windowAfter_succ (by omega), hd,
    show s.p.length + (s.pos - s.plen) = s.pos by omega]

/-- R145: FINISH stores the remainder of the dividend view. -/
theorem finish_of_runInv {s : State} (h : RunInv s) (hl : s.pos = s.viewLen) :
    finish s = (storeResult (mod2rem (view (opOfCode s.op) s.a s.p) s.p)
      (s.divide (view (opOfCode s.op) s.a s.p) s.p)).toDone := by
  have hr := runInv_ready h
  obtain ⟨ha, hp, -, -, -, hw⟩ := h
  have hv : (view (opOfCode s.op) s.a s.p).length = s.viewLen := by
    rw [view_length (by omega), ha, hp]; rfl
  have hf : condxor s.w s.p = finalWindow (view (opOfCode s.op) s.a s.p) s.p := by
    rw [finalWindow_eq, hw, hl, hv, hp]
  rw [finish_eq, hf]
  unfold State.divide
  rw [hv, ← hl]
  rfl

/-- R145, R151: what is stored for a latched request that passed the check is its flattened result, which COLLECT's
reading gives back. -/
theorem storeResult_response {l : State} {i : Instr} {c : Config.Params} (hi : l.latched = i)
    (ha : l.alen = i.a.length) (hp : l.plen = i.p.length) (h : checkInstr c i = none) :
    let t := (storeResult (mod2rem (view i.op i.a i.p) i.p) l).toDone
    t.latched = i ∧ t.rspRegister = flatten (result i) ∧ t.response = some (result i) ∧ t.err = noFault := by
  obtain ⟨h1, h2⟩ := lengths_of_valid h
  have hr : (mod2rem (view i.op i.a i.p) i.p).length = i.p.length - 1 := by
    simp [mod2rem, finalWindow_length h1 h2]
  have hop : opOfCode l.op = i.op := by rw [← hi, latched_op]
  have haa : l.a = i.a := by rw [← hi, latched_a]
  have hpp : l.p = i.p := by rw [← hi, latched_p]
  cases i <;>
    simp [storeResult, hop, Instr.op, State.latched, haa, hpp, State.rspRegister, Instr.a, Instr.p, view, ha, hp,
      result, flatten, State.response, unflatten, Instr.ofParts, noFault, verdict] at hr h1 ⊢ <;>
    omega

end Sys2Proof.Laws
end

