-- ==== Sys2Proof/Laws/PerInstr.lean ====
section
/-! SUPPORT. What holds of every request as syntax, one lemma per constructor: the port image lists exactly the live
bits under the operation's own code. -/

namespace Sys2Proof.Laws.PortImage

/-- R70, R71: the port image of a request is canonical, carries its code and its two true lengths. -/
def Statement (i : Instr) : Prop :=
  (encode i).canonical = true ∧ opOfCode (encode i).op = i.op ∧
    (encode i).alen = i.a.length ∧ (encode i).plen = i.p.length

theorem rem (a p : BitSeq) : Statement (.rem a p) := by simp [Statement, encode, ReqPorts.canonical]

theorem gen (a p : BitSeq) : Statement (.gen a p) := by simp [Statement, encode, ReqPorts.canonical]

theorem enc (a p : BitSeq) : Statement (.enc a p) := by simp [Statement, encode, ReqPorts.canonical]

theorem ver (a p : BitSeq) : Statement (.ver a p) := by simp [Statement, encode, ReqPorts.canonical]

end Sys2Proof.Laws.PortImage
end

