-- ==== Sys2Proof/Tests/Slice0.lean ====
section
/-! SUPPORT. Tests against the spec's own vectors (95_test_vectors.md; the row is named at each test), the smoke tests of
the checks, and a witness for the hypotheses of each statement. Literals: `seq n v` is the `n`-bit sequence whose bits,
leading bit first, are those of the binary numeral `v` (30_encoding.md R77). -/

namespace Sys2Proof.Tests

open Sys2Proof.Machine Sys2Proof.Safety

def seq (n v : Nat) : BitSeq := (List.range n).map (fun i => v.testBit (n - 1 - i))

theorem test_seq_leading_bit_first : seq 4 0b1101 = [true, true, false, true] := by decide

/-- The outcome is a next state with the property. -/
def nextHas (o : Host.Outcome State Fault Refusal) (f : State → Bool) : Bool :=
  match o with
  | .next t => f t
  | .fault _ => false
  | .refused _ => false

/-- The host presents a request. -/
def ask (i : Instr) : Drive := { Drive.low with reqValid := true, req := encode i }

/-- The host collects. -/
def take : Drive := { Drive.low with rspReady := true }

/-- The host resets. -/
def reset : Drive := { Drive.low with rst := true }

def small (m : Config.Stepping) : Config.Params := { maxN := .bits 8, maxK := .bits 4, stepping := m }

/-- After reset, with the parameters and the drives given. -/
def idle (c : Config.Params) (ds : List Drive) : State := { State.reset with params := c, script := ds }

def combinational : Config.Params := { Config.Params.default with stepping := .combinational }

/-- `ENC 100100, 1101` of trace T1. -/
def encT1 : Instr := .enc (seq 6 0b100100) (seq 4 0b1101)

/-- V-SEQ row 1, after SUBMIT. -/
def running : State :=
  { State.reset with
    phase := .run, op := 0b10#2, a := seq 6 0b100100, alen := 6, p := seq 4 0b1101, plen := 4, w := seq 4 0b1001, pos := 4 }

/-- V-SEQ row 4, before FINISH. -/
def lastRound : State := { running with w := seq 4 0b1100, pos := 9 }

/-- V-SEQ row 4, after FINISH. -/
def finished : State :=
  { lastRound with
    phase := .done, w := seq 4 0b0001, r := seq 3 0b001, rlen := 3, cw := seq 9 0b100100001, cwlen := 9 }

/-! ### Smoke tests of the checks -/

theorem test_params_default_wf : Config.Params.default.wf = true := by decide
theorem test_params_refuses_short_maxK : ({ maxN := .bits 8, maxK := .bits 1, stepping := .bitSerial } : Config.Params).wf = false := by decide
theorem test_params_refuses_maxN_below_maxK : ({ maxN := .bits 3, maxK := .bits 4, stepping := .bitSerial } : Config.Params).wf = false := by decide
theorem test_params_refuses_unbounded_maxK_over_bounded_maxN : ({ maxN := .bits 8, maxK := .unbounded, stepping := .bitSerial } : Config.Params).wf = false := by decide
theorem test_ports_refuse_unlisted_live_bit : ({ op := 0b00#2, alen := 2, a := [true], plen := 1, p := [true] } : ReqPorts).canonical = false := by decide
theorem test_ports_refuse_bit_beyond_the_length : ({ op := 0b00#2, alen := 1, a := [true], plen := 1, p := [true, true] } : ReqPorts).canonical = false := by decide

/-! ### Decoding, from the codes of R71 and the encodings of programs P1 to P4 -/

theorem test_decode_rem : decode { op := 0b00#2, alen := 3, a := [true, true, true], plen := 2, p := [true, true] } = .rem (seq 3 0b111) (seq 2 0b11) := by decide
theorem test_decode_gen : decode { op := 0b01#2, alen := 1, a := [true], plen := 4, p := [true, true, false, true] } = .gen (seq 1 0b1) (seq 4 0b1101) := by decide
theorem test_decode_enc : decode { op := 0b10#2, alen := 6, a := [true, false, false, true, false, false], plen := 4, p := [true, true, false, true] } = encT1 := by decide
theorem test_decode_ver : decode { op := 0b11#2, alen := 3, a := [true, true, false], plen := 4, p := [true, true, false, true] } = .ver (seq 3 0b110) (seq 4 0b1101) := by decide
theorem test_decode_ignores_bits_beyond : decode { op := 0b11#2, alen := 2, a := [true, false, true, true], plen := 1, p := [true, true] } = .ver (seq 2 0b10) (seq 1 0b1) := by decide
theorem test_table_words : decodeTableWord 8 0 = some (.rem [] []) ∧ decodeTableWord 8 1 = some (.gen [] []) ∧ decodeTableWord 8 2 = some (.enc [] []) ∧ decodeTableWord 8 3 = some (.ver [] []) := by decide
/-- R181, V-ERR row 2: a table word's empty operands are answered with code 1. -/
theorem test_fetch_word_is_run_from_reset : nextHas (step (State.reset.withFetchWord 8 2)) (fun t => t.err == 0b01#2 && t.op == 0b10#2 && t.phase == .done) = true := by decide

/-! ### The operations, on V-REM, V-GEN, V-ENC, V-VER, V-ERR -/

theorem test_rem_row11 : nextHas (exec (.rem (seq 17 0b11010011101100000) (seq 4 0b1011)) State.reset) (fun t => t.response == some (.rspRem (seq 3 0b100))) = true := by decide
theorem test_rem_row14_leading_zero_divisor : nextHas (exec (.rem (seq 5 0b10011) (seq 3 0b011)) State.reset) (fun t => t.response == some (.rspRem (seq 2 0b01))) = true := by decide
theorem test_gen_row2_short_message : nextHas (exec (.gen (seq 1 0b1) (seq 4 0b1101)) State.reset) (fun t => t.response == some (.rspRem (seq 3 0b101))) = true := by decide
theorem test_gen_row14_empty_message : nextHas (exec (.gen [] (seq 4 0b1101)) State.reset) (fun t => t.response == some (.rspErr .invalidInputLength)) = true := by decide
theorem test_enc_S1 : nextHas (exec encT1 State.reset) (fun t => t.response == some (.rspEnc (seq 3 0b001) (seq 9 0b100100001))) = true := by decide
theorem test_enc_err_row11_capacity : nextHas (exec encT1 (idle (small .bitSerial) [])) (fun t => t.response == some (.rspErr .capacityExceeded)) = true := by decide
theorem test_ver_S2 : nextHas (exec (.ver (seq 9 0b100100001) (seq 4 0b1101)) State.reset) (fun t => t.response == some (.rspVer true)) = true := by decide
theorem test_ver_S3 : nextHas (exec (.ver (seq 9 0b000100001) (seq 4 0b1101)) State.reset) (fun t => t.response == some (.rspVer false)) = true := by decide

/-! ### The step rules, on V-SEQ -/

theorem test_submit_row1 : nextHas (step (idle Config.Params.default [ask encT1])) (fun t => t.phase == .run && t.w == seq 4 0b1001 && t.pos == 4 && t.op == 0b10#2) = true := by decide
theorem test_submit_row7_padding : nextHas (step (idle Config.Params.default [ask (.gen (seq 1 1) (seq 4 0b1101))])) (fun t => t.phase == .run && t.w == seq 4 0b1000 && t.pos == 4 && t.viewLen == 4) = true := by decide
theorem test_advance_row2 : nextHas (step running) (fun t => t.w == seq 4 0b1000 && t.pos == 5 && t.phase == .run) = true := by decide
theorem test_advance_row3_padding : nextHas (step { running with w := seq 4 0b0110, pos := 8 }) (fun t => t.w == seq 4 0b1100 && t.pos == 9) = true := by decide
theorem test_finish_row4 : nextHas (step lastRound) (fun t => t == { finished with free := 1 }) = true := by decide
theorem test_collect_row5 : nextHas (step { finished with script := [take] }) (fun t => t.delivered == [some (.rspEnc (seq 3 0b001) (seq 9 0b100100001))] && t.phase == .idle) = true := by decide
theorem test_reset_row10 : nextHas (step { running with script := [reset] }) (fun t => t.phase == .idle && t.delivered == []) = true := by decide
/-- R167's example: the quotient 111101 is the sequence of leading bits tested in trace T1. -/
theorem test_quotient_of_T1 : testedBits (seq 9 0b100100000) (seq 4 0b1101) = seq 6 0b111101 := by decide
/-- R167's example: (x^5 + x^4 + x^3 + x^2 + 1)(x^3 + x^2 + 1) + 1 = x^8 + x^5. -/
theorem test_product_of_T1 : BitSeq.xor (clmul (seq 6 0b111101) (seq 4 0b1101)) (seq 9 0b000000001) = seq 9 0b100100000 := by decide

/-! ### Witnesses: the hypotheses of each statement are met together -/

theorem presents_encT1 {c : Config.Params} (rest : List Drive) (hN : c.maxN.exceededBy 6 = false)
    (hK : c.maxK.exceededBy 4 = false) : Presents (idle c (ask encT1 :: rest)) encT1 := by
  refine ⟨rfl, rfl, ?_⟩
  rw [Laws.request_eq]
  show Instr.ofParts _ (throughPort c.maxN _ _ 6) (throughPort c.maxK _ _ 4) = _
  rw [Laws.throughPort_of_fits _ _ hN, Laws.throughPort_of_fits _ _ hK]
  rfl

theorem valid_encT1 : Valid Config.Params.default encT1 := ⟨by rintro (h | h) <;> revert h <;> decide, rfl, rfl⟩

theorem running_runInv : RunInv running := by unfold RunInv; decide

theorem running_inv : Inv running := ⟨by decide, fun _ => running_runInv, fun h => by cases h⟩

theorem lastRound_inv : Inv lastRound := ⟨by decide, fun _ => (by unfold RunInv; decide), fun h => (by cases h)⟩

theorem finished_inv : Inv finished := ⟨by decide, fun h => (by cases h), fun _ => (by unfold DoneInv; decide)⟩

/-- The whole script of one transaction: `ENC 100100, 1101`, six steps of the block, COLLECT. -/
def whole : List Drive := ask encT1 :: (List.replicate 6 Drive.low ++ [take])

theorem witness_OperandsAreThePortBitsBelowTheirLengths :
    let q : ReqPorts := { op := 0b10#2, alen := 2, a := [true, false, true], plen := 1, p := [true] }
    let q' : ReqPorts := { op := 0b10#2, alen := 2, a := [true], plen := 1, p := [true, true] }
    1 < q.alen ∧ 0 < q.plen ∧ decode q = decode q' ∧ decode q ≠ decode { q with alen := 3 } := by decide

theorem witness_DecodedCanonicalPortsEncodeBack : (encode encT1).canonical = true ∧ (encode (.rem [] [])).canonical = true := by decide

theorem witness_StepRunsThePresentedRequest :
    (idle combinational [ask encT1]).phase = .idle ∧ Presents (idle combinational [ask encT1]) encT1 ∧
    (idle combinational [ask encT1]).params.stepping = .combinational ∧
    Presents (idle Config.Params.default [ask encT1]) encT1 ∧
    (idle Config.Params.default [ask encT1]).params.stepping = .bitSerial :=
  ⟨rfl, presents_encT1 _ rfl rfl, rfl, presents_encT1 _ rfl rfl, rfl⟩

theorem witness_FetchWordIsRunByTheNextStep : decodeTableWord 8 3 = some (.ver [] []) ∧ decodeTableWord 2 0 = some (.rem [] []) := by decide

/-- Each clause at its boundary: the empty divisor and a dividend one bit short; a dividend of 9 bits over `MAXN = 8` and
a divisor of 5 bits over `MAXK = 4`; the one-bit minimal request. -/
theorem witness_RemAnswersByItsRule :
    State.reset.phase = .idle ∧
    ((seq 3 0b101).length < 3 + 1 ∧ ([] : BitSeq).length < 1 ∧ (seq 2 0b11).length < (seq 3 0b101).length) ∧
    (1 ≤ (seq 4 0b1101).length ∧ (seq 4 0b1101).length ≤ (seq 9 0).length ∧ (small .bitSerial).maxN.exceededBy (seq 9 0).length = true) ∧
    ((seq 5 0b10101).length ≤ (seq 5 0b10101).length ∧ (small .bitSerial).maxK.exceededBy (seq 5 0b10101).length = true) ∧
    (1 ≤ (seq 1 1).length ∧ (seq 1 1).length ≤ (seq 1 0).length ∧
      (small .bitSerial).maxN.exceededBy (seq 1 0).length = false ∧ (small .bitSerial).maxK.exceededBy (seq 1 1).length = false) := by decide

/-- Each clause at its boundary: a one-bit polynomial and the empty message; `N = 9` over `MAXN = 8`; `N = 8`, which fits. -/
theorem witness_GenAnswersByItsRule :
    State.reset.phase = .idle ∧ (seq 1 1).length < 2 ∧ ([] : BitSeq).length = 0 ∧
    (2 ≤ (seq 4 0b1101).length ∧ 1 ≤ (seq 6 0b100100).length ∧ (small .bitSerial).maxN.exceededBy (6 + 4 - 1) = true) ∧
    (2 ≤ (seq 4 0b1101).length ∧ 1 ≤ (seq 5 0b10010).length ∧ (small .bitSerial).maxN.exceededBy (5 + 4 - 1) = false ∧
      (small .bitSerial).maxK.exceededBy (seq 4 0b1101).length = false) := by decide

/-- The same, at the shortest legal request too. -/
theorem witness_EncAnswersByItsRule :
    State.reset.phase = .idle ∧ (seq 1 1).length < 2 ∧ ([] : BitSeq).length = 0 ∧
    (2 ≤ (seq 4 0b1101).length ∧ 1 ≤ (seq 6 0b100100).length ∧ (small .bitSerial).maxN.exceededBy (6 + 4 - 1) = true) ∧
    (2 ≤ (seq 2 0b11).length ∧ 1 ≤ (seq 1 1).length ∧ (small .bitSerial).maxN.exceededBy (1 + 2 - 1) = false ∧
      (small .bitSerial).maxK.exceededBy (seq 2 0b11).length = false) := by decide

/-- Each clause at its boundary; the last one by a request that sets `OK`. -/
theorem witness_VerAnswersByItsRule :
    State.reset.phase = .idle ∧ (seq 1 1).length < 2 ∧ (seq 3 0b110).length < (seq 4 0b1101).length ∧
    (2 ≤ (seq 4 0b1101).length ∧ 4 ≤ (seq 9 0).length ∧ (small .bitSerial).maxN.exceededBy (seq 9 0).length = true) ∧
    (2 ≤ (seq 2 0b11).length ∧ (seq 2 0b11).length ≤ (seq 2 0b11).length ∧
      (small .bitSerial).maxN.exceededBy (seq 2 0b11).length = false ∧ (small .bitSerial).maxK.exceededBy (seq 2 0b11).length = false) ∧
    nextHas (exec (.ver (seq 2 0b11) (seq 2 0b11)) State.reset) (fun t => t.ok) = true := by decide

theorem witness_EveryRequestHasItsOneResponse : State.reset.phase = .idle := rfl

theorem witness_ExecFrameOfEveryOperation :
    nextHas (exec encT1 State.reset) (fun _ => true) = true ∧ nextHas (exec encT1 running) (fun _ => true) = true ∧
    nextHas (exec (.ver [] []) State.reset) (fun t => t.err != 0b00#2) = true := by decide

theorem witness_RequestWhileBusyIsNotTaken :
    running.phase ≠ .idle ∧ finished.phase ≠ .idle ∧ State.reset.phase = .idle ∧ State.reset.drive.rst = false ∧
    State.reset.drive.reqValid = false := by decide

theorem witness_InvalidInputLengthIsRaisedExactlyByTheTable :
    State.reset.phase = .idle ∧ InvalidLength (.ver (seq 3 0b110) (seq 4 0b1101)) ∧ InvalidLength (.gen [] (seq 2 0b11)) :=
  ⟨rfl, .inr (by decide), .inr rfl⟩

theorem witness_CapacityExceededIsRaisedExactlyByOverCapacity :
    State.reset.phase = .idle ∧ State.reset.params.maxN = .unbounded ∧ State.reset.params.maxK = .unbounded ∧
    OverCapacity (small .bitSerial) encT1 :=
  ⟨rfl, rfl, rfl, valid_encT1.1, .inl (by decide)⟩

theorem witness_FaultEntryLatchesTheRequestAndWritesTheErrorResponse :
    (idle (small .bitSerial) []).phase = .idle ∧
    checkInstr Config.Params.default (.ver (seq 3 0b110) (seq 4 0b1101)) = some .invalidInputLength ∧
    checkInstr (small .bitSerial) encT1 = some .capacityExceeded := by decide

theorem witness_FaultDependsOnLengthsAlone :
    (Instr.ver (seq 3 0b110) (seq 4 0b1101)).op = (Instr.ver (seq 3 0b001) (seq 4 0)).op ∧
    (seq 3 0b110).length = (seq 3 0b001).length ∧ (seq 4 0b1101).length = (seq 4 0).length := by decide

theorem witness_EncAgreesWithGen :
    State.reset.phase = .idle ∧
    nextHas (exec (.gen (seq 6 0b100100) (seq 4 0b1101)) State.reset) (fun u => u.err == 0b00#2) = true := by decide

theorem witness_OnlyVerSetsTheOkFlag :
    nextHas (exec (.ver (seq 9 0b100100001) (seq 4 0b1101)) State.reset) (fun t => t.ok) = true := by decide

theorem witness_SubmitLatchesTheRequestAndLoadsTheWindow :
    Presents (idle Config.Params.default [ask encT1]) encT1 ∧ checkInstr Config.Params.default encT1 = none ∧
    Presents (idle (small .bitSerial) [ask encT1]) encT1 ∧ checkInstr (small .bitSerial) encT1 = some .capacityExceeded ∧
    Presents { running with script := [ask encT1] } encT1 ∧
    nextHas (step { running with script := [ask encT1] }) (fun _ => true) = true :=
  ⟨presents_encT1 _ rfl rfl, by decide, presents_encT1 _ rfl rfl, by decide, ⟨rfl, rfl, by decide⟩, by decide⟩

theorem witness_AdvanceTakesInOneDividendBit :
    running.phase = .run ∧ running.drive.rst = false ∧ windowReady running = true ∧ running.pos < running.viewLen ∧
    windowReady { running with pos := 8 } = true ∧ ({ running with pos := 8 } : State).pos < running.viewLen := by decide

/-- Every code of `OP`: GEN and ENC end at `N = 9`, REM and VER of the same operand at `N = 6`. -/
theorem witness_FinishWritesTheResponseOfTheOperation :
    lastRound.phase = .run ∧ lastRound.drive.rst = false ∧ windowReady lastRound = true ∧ lastRound.pos = lastRound.viewLen ∧
    ({ lastRound with op := 0b01#2 } : State).viewLen = 9 ∧ ({ lastRound with op := 0b00#2 } : State).viewLen = 6 ∧
    ({ lastRound with op := 0b11#2 } : State).viewLen = 6 ∧ windowReady { lastRound with op := 0b11#2, pos := 6 } = true := by decide

theorem witness_CollectDeliversTheResponse :
    finished.phase = .done ∧ ({ finished with script := [take] } : State).drive.rspReady = true ∧
    ({ finished with script := [take] } : State).drive.rst = false ∧ finished.drive.rspReady = false := by decide

theorem witness_ResetLeavesIdleAndDeliversNothing :
    ({ running with script := [reset] } : State).drive.rst = true ∧
    nextHas (step { running with script := [reset] }) (fun t => !t.drive.rst) = true := by decide

theorem witness_BlockWaitsForTheHostWithoutChange :
    finished.phase = .done ∧
    (∀ d ∈ ({ finished with script := [ask encT1, Drive.low] } : State).script.take 2, d.rst = false ∧ d.rspReady = false) ∧
    State.reset.phase = .idle ∧
    (∀ d ∈ (idle Config.Params.default [take]).script.take 1, d.rst = false ∧ d.reqValid = false) := by decide

/-- One state for each clause of the phase graph. -/
theorem witness_PhasesFollowTheGraph :
    nextHas (step { running with script := [reset] }) (fun _ => true) = true ∧
    nextHas (step State.reset) (fun t => t.phase == .idle) = true ∧
    nextHas (step (idle Config.Params.default [ask encT1])) (fun t => t.phase == .run) = true ∧
    nextHas (step (idle combinational [ask encT1])) (fun t => t.phase == .done) = true ∧
    nextHas (step running) (fun t => t.phase == .run) = true ∧
    nextHas (step lastRound) (fun t => t.phase == .done) = true ∧
    nextHas (step { finished with script := [take] }) (fun t => t.phase == .idle) = true := by decide

theorem witness_OnlyCollectDeliversAndParametersStay :
    nextHas (step { finished with script := [take] }) (fun _ => true) = true ∧
    ({ finished with script := [take] } : State).drive.rspReady = true ∧ nextHas (step running) (fun _ => true) = true := by decide

theorem witness_OperandsAreNeverModifiedAfterSubmit :
    nextHas (step running) (fun _ => true) = true ∧ running.drive.rst = false ∧ running.phase ≠ .idle ∧
    nextHas (step State.reset) (fun _ => true) = true ∧ State.reset.drive.reqValid = false := by decide

theorem witness_DbitReadsTheDividendView :
    running.a.length = running.alen ∧ running.p.length = running.plen ∧ 1 ≤ running.plen ∧ 8 < running.viewLen := by decide

theorem witness_AccessesInRunAreInBounds : Inv lastRound ∧ lastRound.phase = .run := ⟨lastRound_inv, rfl⟩

theorem witness_PortsShowThePhase :
    Inv State.reset ∧ Inv running ∧ Inv finished ∧ 2 < finished.rlen ∧ 8 < finished.cwlen :=
  ⟨⟨by decide, fun h => (by cases h), fun h => (by cases h)⟩, running_inv, finished_inv, by decide⟩

theorem witness_FlatteningIsReadBackByTheOperation : (Instr.rem (seq 3 0b111) (seq 2 0b11)).op = (Instr.rem (seq 3 0b001) (seq 2 0b11)).op ∧
    flatten (transact Config.Params.default (.rem (seq 3 0b111) (seq 2 0b11))) =
      flatten (transact Config.Params.default (.rem (seq 3 0b001) (seq 2 0b11))) := by decide

theorem witness_NoReservedCodeIsUsed : Inv finished ∧ finished.rspValid = true := ⟨finished_inv, rfl⟩

theorem witness_EveryStepKeepsTheInvariant :
    Inv running ∧ nextHas (step running) (fun _ => true) = true ∧ Inv lastRound ∧ nextHas (step lastRound) (fun _ => true) = true ∧
    Inv finished ∧ nextHas (step finished) (fun _ => true) = true :=
  ⟨running_inv, by decide, lastRound_inv, by decide, finished_inv, by decide⟩

theorem witness_InvariantStatesNeverStop : Inv running ∧ Inv lastRound ∧ Inv finished := ⟨running_inv, lastRound_inv, finished_inv⟩

theorem witness_RunReachesDoneInCountedSteps :
    Inv running ∧ running.phase = .run ∧ NoReset { running with script := [ask encT1] } (running.viewLen - running.pos + 1) :=
  ⟨running_inv, rfl, by unfold NoReset; decide⟩

theorem witness_WindowFollowsTheDivisionRoundByRound :
    Presents (idle Config.Params.default whole) encT1 ∧ checkInstr Config.Params.default encT1 = none ∧
    5 ≤ (view encT1.op encT1.a encT1.p).length - encT1.p.length ∧ NoReset (idle Config.Params.default whole) (1 + 5) :=
  ⟨presents_encT1 _ rfl rfl, by decide, by decide, by unfold NoReset; decide⟩

theorem witness_StepMachineReachesTheTransactionResult :
    Presents (idle Config.Params.default whole) encT1 ∧
    NoReset (idle Config.Params.default whole) (stepsToDone Config.Params.default encT1) ∧
    Presents (idle combinational whole) encT1 ∧ NoReset (idle combinational whole) (stepsToDone combinational encT1) :=
  ⟨presents_encT1 _ rfl rfl, by unfold NoReset; decide, presents_encT1 _ rfl rfl, by unfold NoReset; decide⟩

theorem witness_CollectedResponseIsTheTransactionFunction :
    (idle Config.Params.default whole).phase = .idle ∧ Presents (idle Config.Params.default whole) encT1 ∧
    NoReset (idle Config.Params.default whole) (stepsToDone Config.Params.default encT1) ∧
    whole[stepsToDone Config.Params.default encT1]? = some take ∧ take.rst = false ∧ take.rspReady = true :=
  ⟨rfl, presents_encT1 _ rfl rfl, by unfold NoReset; decide, by decide, rfl, rfl⟩

theorem witness_NoStateCrossesATransaction :
    (idle Config.Params.default whole).phase = .idle ∧ ({ finished with phase := .idle, script := whole } : State).phase = .idle ∧
    ({ finished with phase := .idle, script := whole } : State) ≠ idle Config.Params.default whole := by decide

theorem witness_ResetForgetsTheAbandonedTransaction :
    ({ running with script := reset :: whole } : State).drive.rst = true ∧
    (idle Config.Params.default whole).script = ({ running with script := reset :: whole } : State).script.tail := by decide

theorem witness_WindowMovesBitByBit : 1 ≤ (seq 1 1).length ∧ (seq 1 0).length = (seq 1 1).length ∧ 1 + 1 < (seq 4 0b1101).length := by decide

theorem witness_RemainderHasLengthOneLessThanDivisor :
    1 ≤ (seq 1 1).length ∧ (seq 1 1).length ≤ (seq 1 0).length ∧
    State.reset.phase = .idle ∧ Valid State.reset.params encT1 ∧ encT1.op ≠ .ver :=
  ⟨by decide, by decide, rfl, valid_encT1, by decide⟩

theorem witness_UniformFormIsTheDivision : 1 ≤ (seq 4 0b1101).length ∧ (seq 4 0b1101).length ≤ (seq 9 0b100100000).length := by decide

theorem witness_AllZeroDivisorGivesTheTail : 1 ≤ 3 ∧ 3 ≤ (seq 5 0b10111).length := by decide

theorem witness_AllZeroDividendGivesZeros : 1 ≤ (seq 4 0b1011).length ∧ (seq 4 0b1011).length ≤ 8 := by decide

theorem witness_MinimalDividendAndOneBitDivisor : (seq 4 0b1001).length = (seq 4 0b1101).length ∧ 1 ≤ (seq 3 0b101).length := by decide

/-- V-LAW row 4: `REM 000101, 1101`. -/
theorem witness_ZeroLeadGivesTheTail :
    (seq 4 0b1101).length ≤ (seq 6 0b000101).length ∧
    ∀ i, i ≤ (seq 6 0b000101).length - (seq 4 0b1101).length → (seq 6 0b000101).getD i false = false := by decide

theorem witness_DivisionIsLinearInTheDividend :
    1 ≤ (seq 4 0b1101).length ∧ (seq 4 0b1101).length ≤ (seq 9 0b100100001).length ∧
    (seq 9 0b100100001).length = (seq 9 0b000001101).length ∧
    1 ≤ (seq 6 0b100100).length ∧ 2 ≤ (seq 4 0b1101).length ∧ (seq 9 0b000001101).length = 6 + 4 - 1 := by decide

theorem witness_CodewordIsMessageThenRemainder :
    State.reset.phase = .idle ∧ Valid State.reset.params encT1 ∧ nextHas (exec encT1 State.reset) (fun _ => true) = true :=
  ⟨rfl, valid_encT1, by decide⟩

theorem witness_EncodedCodewordVerifies :
    State.reset.phase = .idle ∧ ({ finished with phase := .idle } : State).phase = .idle ∧
    ({ finished with phase := .idle } : State).params = State.reset.params ∧ Valid State.reset.params encT1 :=
  ⟨rfl, rfl, rfl, valid_encT1⟩

theorem witness_VerdictDependsOnTheErrorPatternAlone :
    Valid State.reset.params encT1 ∧ (seq 9 0b000001101).length = encT1.a.length + encT1.p.length - 1 :=
  ⟨valid_encT1, by decide⟩

theorem witness_ShiftedPolynomialIsUndetectable : (seq 4 0b1101).getD 0 false = true := by decide

theorem witness_SingleFlipIsDetectedByTwoTermPolynomials :
    (seq 4 0b1101).getD 0 false = true ∧ (∃ j, 0 < j ∧ (seq 4 0b1101).getD j false = true) ∧
    (seq 4 0b1101).length ≤ 9 ∧ 0 < 9 ∧ 8 < 9 := ⟨by decide, ⟨3, by decide⟩, by decide⟩

theorem witness_DivisionIsPolynomialDivision :
    (seq 4 0b1101).getD 0 false = true ∧ (seq 4 0b1101).length ≤ (seq 9 0b100100000).length ∧
    (seq 6 0b111101).length = 9 - 4 + 1 ∧ (seq 3 0b001).length = 4 - 1 ∧
    seq 9 0b100100000 = BitSeq.xor (clmul (seq 6 0b111101) (seq 4 0b1101)) (BitSeq.zeros (9 - 4 + 1) ++ seq 3 0b001) := by decide

/-- `MAXN = 8`: bit 7 of an operand of 9 bits has a pin, bit 8 has none; two requests that differ in bit 8 alone. -/
theorem witness_OperandBitsComeThroughThePins :
    let q : ReqPorts := encode (.rem (seq 9 0b100100001) (seq 4 0b1101))
    let q' : ReqPorts := encode (.rem (seq 9 0b100100000) (seq 4 0b1101))
    let s : State := idle (small .bitSerial) [ask (.rem (seq 8 0b10010000) (seq 4 0b1101))]
    (7 < q.alen ∧ (small .bitSerial).maxN.hasPin 7 = true ∧ (small .bitSerial).maxN.hasPin 8 = false) ∧
    (3 < q.plen ∧ (small .bitSerial).maxK.hasPin 3 = true ∧ (small .bitSerial).maxK.hasPin 4 = false) ∧
    (q.op = q'.op ∧ q.alen = q'.alen ∧ q.plen = q'.plen ∧ q ≠ q' ∧
      (∀ i, i < q.alen → (small .bitSerial).maxN.hasPin i = true → q.a.getD i false = q'.a.getD i false) ∧
      (∀ i, i < q.plen → (small .bitSerial).maxK.hasPin i = true → q.p.getD i false = q'.p.getD i false)) ∧
    checkInstr s.params s.request = none := by decide

/-- R30: `rsp_r` of a block with `MAXK = 4` has 3 pins, `rsp_cw` with `MAXN = 8` has 8. -/
theorem test_response_pins :
    let s : State := idle (small .bitSerial) []
    s.rspRPin 3 = none ∧ s.rspCwPin 8 = none ∧ (s.rspRPin 2).isSome = true ∧ (s.rspCwPin 7).isSome = true := by decide

/-- R30, R36: `req_ready` follows `PHASE`; R210: no request is taken while `rst = 1`. -/
theorem test_ready_under_reset :
    (idle Config.Params.default [{ ask encT1 with rst := true }]).reqReady = true ∧
    nextHas (step (idle Config.Params.default [{ ask encT1 with rst := true }])) (fun t => t.phase == .idle) = true := by decide

end Sys2Proof.Tests
end

section
/-! PROOF. The step and the request it runs (00_scope.md R7; 44_sequencer.md R143, R216, R226). -/

namespace Sys2Proof.Laws

open Sys2Proof.Machine

/-- R226: under combinational stepping a request is taken as the whole transaction (log 2). -/
theorem takeRequest_of_combinational {s : State} (h : s.params.stepping = .combinational) (i : Instr) :
    takeRequest i s = exec i s := by
  simp only [takeRequest, h]

/-- R143: under bit-serial stepping a request is taken by SUBMIT alone (log 2). -/
theorem takeRequest_of_bitSerial {s : State} (h : s.params.stepping = .bitSerial) (i : Instr) :
    takeRequest i s = .next (submit i s) := by
  simp only [takeRequest, h]

/-- R216: in `IDLE` a presented request is taken, on the state one step later on the host's side. -/
theorem step_of_presents {s : State} {i : Instr} (hp : s.phase = .idle) (h : Safety.Presents s i) :
    step s = takeRequest i s.tick := by
  obtain ⟨hrst, hvalid, rfl⟩ := h
  exact step_of_request hp hrst hvalid

/-- Settles O5: the presented request is taken, and the stepping says how. -/
theorem stepRunsThePresentedRequest : Obligations.StepRunsThePresentedRequest := by
  intro s i hp hpres
  rw [step_of_presents hp hpres]
  constructor
  · intro hc
    exact takeRequest_of_combinational (s := s.tick) hc i
  · intro hb
    exact takeRequest_of_bitSerial (s := s.tick) hb i

end Sys2Proof.Laws
end

section
/-! PROOF. What a step can do, case by case, and what every step leaves unchanged (44_sequencer.md R143 to R147, R210). -/

namespace Sys2Proof.Laws

open Sys2Proof.Machine

/-- R187: a request that fails the check is taken alike under both steppings. -/
theorem takeRequest_of_fault {s : State} {i : Instr} {e : ReqFault} (hp : s.phase = .idle)
    (h : checkInstr s.params i = some e) : takeRequest i s = .next ((s.latch i.op i.a i.p).takeFault e) := by
  cases hs : s.params.stepping with
  | bitSerial => rw [takeRequest_of_bitSerial hs, submit_of_fault h]
  | combinational => rw [takeRequest_of_combinational hs, exec_of_fault hp h]

/-- The steps of the machine, one constructor for each rule; `step_moves` ties them to `step`. -/
inductive Moves (s : State) : State → Prop
  /-- R210. -/
  | reset (rst : s.drive.rst = true) : Moves s s.tick.hardReset
  /-- R150, R218: `IDLE` without a request, `DONE` without `rsp_ready`. -/
  | wait (rst : s.drive.rst = false)
      (quiet : s.phase = .idle ∧ s.drive.reqValid = false ∨ s.phase = .done ∧ s.drive.rspReady = false) :
      Moves s s.tick
  /-- R143, R187: a request that fails the check. -/
  | fault (rst : s.drive.rst = false) (idle : s.phase = .idle) (valid : s.drive.reqValid = true) (e : ReqFault)
      (check : checkInstr s.params s.request = some e) :
      Moves s ((s.tick.latch s.request.op s.request.a s.request.p).takeFault e)
  /-- R143: a request that passes the check, under bit-serial stepping. -/
  | submit (rst : s.drive.rst = false) (idle : s.phase = .idle) (valid : s.drive.reqValid = true)
      (check : checkInstr s.params s.request = none) : Moves s (submit s.request s.tick)
  /-- R226: a request that passes the check, under combinational stepping. -/
  | transaction (rst : s.drive.rst = false) (idle : s.phase = .idle) (valid : s.drive.reqValid = true)
      (check : checkInstr s.params s.request = none) (t : State) (exec : exec s.request s.tick = .next t) : Moves s t
  /-- R144. -/
  | advance (rst : s.drive.rst = false) (run : s.phase = .run) (lt : s.pos < s.viewLen) : Moves s (advance s.tick)
  /-- R145. -/
  | finish (rst : s.drive.rst = false) (run : s.phase = .run) (eq : s.pos = s.viewLen) : Moves s (finish s.tick)
  /-- R146. -/
  | collect (rst : s.drive.rst = false) (done : s.phase = .done) (ready : s.drive.rspReady = true) :
      Moves s s.tick.collect

/-- R216: what taking a request can do. -/
theorem moves_of_request {s t : State} (rst : s.drive.rst = false) (idle : s.phase = .idle)
    (valid : s.drive.reqValid = true) (h : takeRequest s.request s.tick = .next t) : Moves s t := by
  cases hc : checkInstr s.params s.request with
  | some e =>
    rw [takeRequest_of_fault (s := s.tick) idle hc] at h
    cases h
    exact .fault rst idle valid e hc
  | none =>
    cases hs : s.params.stepping with
    | bitSerial =>
      rw [takeRequest_of_bitSerial (s := s.tick) hs] at h
      cases h
      exact .submit rst idle valid hc
    | combinational =>
      rw [takeRequest_of_combinational (s := s.tick) hs] at h
      exact .transaction rst idle valid hc t h

/-- R148: what a block step can do when it does not stop. -/
theorem moves_of_blockStep {s t : State} (rst : s.drive.rst = false) (run : s.phase = .run)
    (h : blockStep s.tick = .next t) : Moves s t := by
  obtain ⟨-, lt, hb⟩ | ⟨-, eq, hb⟩ | ⟨-, -, hb⟩ | ⟨-, hb⟩ := blockStep_cases s.tick <;> rw [hb] at h <;> cases h
  · exact .advance rst run lt
  · exact .finish rst run eq

/-- R7, R147: every step that answers a next state is one of the moves. -/
theorem step_moves {s t : State} (h : step s = .next t) : Moves s t := by
  cases rst : s.drive.rst with
  | true =>
    rw [step_of_reset rst] at h
    cases h
    exact .reset rst
  | false =>
    cases hp : s.phase with
    | idle =>
      cases valid : s.drive.reqValid with
      | true => exact moves_of_request rst hp valid (step_of_request hp rst valid ▸ h)
      | false =>
        rw [step_of_no_request hp rst valid] at h
        cases h
        exact .wait rst (.inl ⟨hp, valid⟩)
    | run => exact moves_of_blockStep rst hp (step_of_run rst hp ▸ h)
    | done =>
      cases ready : s.drive.rspReady with
      | true =>
        rw [step_of_collect hp rst ready] at h
        cases h
        exact .collect rst hp ready
      | false =>
        rw [step_of_hold hp rst ready] at h
        cases h
        exact .wait rst (.inr ⟨hp, ready⟩)

/-- R143: the latch holds the request. -/
theorem latch_latched (s : State) (i : Instr) : (s.latch i.op i.a i.p).latched = i := by
  simp [State.latched, ofParts_self]

/-- R187: the latch holds the faulting request. -/
theorem takeFault_latched (s : State) (i : Instr) (e : ReqFault) :
    ((s.latch i.op i.a i.p).takeFault e).latched = i := latch_latched s i

/-- What storing a result leaves unchanged, under every operation (R145). -/
theorem storeResult_frame (r : BitSeq) (s : State) :
    (storeResult r s).params = s.params ∧ (storeResult r s).script = s.script ∧
      (storeResult r s).delivered = s.delivered ∧ (storeResult r s).a = s.a ∧ (storeResult r s).alen = s.alen ∧
      (storeResult r s).p = s.p ∧ (storeResult r s).plen = s.plen := by
  unfold storeResult
  split <;> simp

/-- `exec` touches neither the parameters nor the host's side. -/
theorem exec_host_frame {i : Instr} {s t : State} (idle : s.phase = .idle) (h : exec i s = .next t) :
    t.params = s.params ∧ t.script = s.script ∧ t.delivered = s.delivered := by
  obtain ⟨e, -, he⟩ | ⟨-, he⟩ := exec_cases i idle <;> rw [he] at h <;> cases h
  · exact ⟨rfl, rfl, rfl⟩
  · obtain ⟨params, script, delivered, -⟩ := storeResult_frame (mod2rem (view i.op i.a i.p) i.p)
      ((s.latch i.op i.a i.p).divide (view i.op i.a i.p) i.p)
    exact ⟨params, script, delivered⟩

/-- What COLLECT hands over in this step, if anything. -/
def handedOver (s : State) : List (Option Response) :=
  if s.phase = .done ∧ s.drive.rst = false ∧ s.drive.rspReady = true then [s.response] else []

/-- R8, R146: a step keeps the parameters, consumes one drive, and delivers only what COLLECT hands over. -/
theorem step_host_frame {s t : State} (h : step s = .next t) :
    t.params = s.params ∧ t.script = s.script.tail ∧ t.delivered = s.delivered ++ handedOver s := by
  cases step_moves h with
  | reset rst => simp [handedOver, rst]
  | wait rst quiet => obtain ⟨hp, -⟩ | ⟨-, ready⟩ := quiet <;> simp [handedOver, *]
  | fault rst idle valid e check => simp [handedOver, idle]
  | submit rst idle valid check =>
    obtain ⟨params, script, delivered, -⟩ := submit_frame s.request s.tick
    simp [handedOver, idle, params, script, delivered]
  | transaction rst idle valid check t exec =>
    obtain ⟨params, script, delivered⟩ := exec_host_frame (s := s.tick) idle exec
    simp [handedOver, idle, params, script, delivered]
  | advance rst run lt => simp [handedOver, run]
  | finish rst run eq =>
    obtain ⟨params, -, -, -, -, -, -, script, delivered, -⟩ := finish_frame s.tick
    simp [handedOver, run, params, script, delivered]
  | collect rst done ready =>
    have : s.tick.response = s.response := rfl
    simp [handedOver, rst, done, ready, this]

/-- Settles O27: of the moves left without RESET and without a taken request, none writes an operand. -/
theorem operandsAreNeverModifiedAfterSubmit : Obligations.OperandsAreNeverModifiedAfterSubmit := by
  intro s t h hrst hquiet
  have notTaken (idle : s.phase = .idle) (valid : s.drive.reqValid = true) : False :=
    hquiet.elim (· idle) (by simp [valid])
  obtain ⟨-, script, -⟩ := step_host_frame h
  cases step_moves h with
  | reset rst => simp [hrst] at rst
  | wait => simp
  | fault rst idle valid e check => exact (notTaken idle valid).elim
  | submit rst idle valid check => exact (notTaken idle valid).elim
  | transaction rst idle valid check t exec => exact (notTaken idle valid).elim
  | advance => simp
  | finish =>
    obtain ⟨-, op, a, alen, p, plen, -⟩ := finish_frame s.tick
    exact ⟨a, alen, p, plen, op, script⟩
  | collect => simp

end Sys2Proof.Laws
end

section
/-! PROOF. The request through the pins of the ports (10_state.md R30), and the response register as COLLECT reads it
(R29, R146). -/

namespace Sys2Proof.Laws

open Sys2Proof.Machine

/-- R30: a step reads no level of the request ports but those that make up the request. -/
theorem step_congr_req {s : State} {d : Drive} {rest : List Drive} {q q' : ReqPorts}
    (h : ({ s with script := { d with req := q } :: rest } : State).request =
      ({ s with script := { d with req := q' } :: rest } : State).request) :
    step { s with script := { d with req := q } :: rest } = step { s with script := { d with req := q' } :: rest } := by
  rw [step_eq, step_eq, h]
  rfl

/-- Settles O58: the request is what the ports bring (`request_eq`), and a port brings the levels of its pins. -/
theorem operandBitsComeThroughThePins : Obligations.OperandBitsComeThroughThePins := by
  intro s
  have ha := congrArg Instr.a (request_eq s)
  have hp := congrArg Instr.p (request_eq s)
  rw [a_ofParts] at ha
  rw [p_ofParts] at hp
  refine ⟨?_, ?_, ?_, ?_, ?_, checkInstr_request _ s, request_of_valid, ?_⟩
  · rw [request_eq, op_ofParts]
  · rw [ha, throughPort_length]
  · rw [hp, throughPort_length]
  · intro i hi pin
    rw [ha, throughPort_getD hi pin]
  · intro i hi pin
    rw [hp, throughPort_getD hi pin]
  · intro d rest q q' hop halen hplen hqa hqp
    refine step_congr_req ?_
    rw [request_eq, request_eq]
    simp only [State.drive, List.headD_cons]
    rw [← hop, ← halen, ← hplen, throughPort_congr hqa, throughPort_congr hqp]

/-- R141: a request that fails the check is answered with its fault. -/
theorem transact_of_fault {c : Config.Params} {i : Instr} {e : ReqFault} (h : checkInstr c i = some e) :
    transact c i = .rspErr e := by
  simp only [transact, h]

/-- R141: a request that passes the check is answered with its result. -/
theorem transact_of_valid {c : Config.Params} {i : Instr} (h : checkInstr c i = none) : transact c i = result i := by
  simp only [transact, h]

/-- R29: an error response is read back under every operation. -/
theorem unflatten_flatten_rspErr (o : Op) (e : ReqFault) : unflatten o (flatten (.rspErr e)) = some (.rspErr e) := by
  cases e <;> simp [unflatten, flatten, faultCode, noFault]

/-- R29: a result is read back under the operation of its request. -/
theorem unflatten_flatten_result (i : Instr) : unflatten i.op (flatten (result i)) = some (result i) := by
  cases i <;> rfl

/-- R29, R146: the flattened answer to a request is read back under the request's operation. -/
theorem unflatten_flatten_transact (c : Config.Params) (i : Instr) :
    unflatten i.op (flatten (transact c i)) = some (transact c i) := by
  cases h : checkInstr c i with
  | some e => rw [transact_of_fault h, unflatten_flatten_rspErr]
  | none => rw [transact_of_valid h, unflatten_flatten_result]

/-- Settles O32: what can be read back is injective. -/
theorem flatteningIsReadBackByTheOperation : Obligations.FlatteningIsReadBackByTheOperation := by
  intro c i j
  refine ⟨unflatten_flatten_transact c i, fun hop h => Option.some.inj ?_⟩
  rw [← unflatten_flatten_transact c i, ← unflatten_flatten_transact c j, hop, h]

/-- R29, R130: of the results, only VER's of an all-zero remainder has `OK` at 1. -/
theorem flatten_result_ok {i : Instr} (h : (flatten (result i)).ok = true) :
    ∃ a p, i = .ver a p ∧ (mod2rem a p).allZero = true := by
  cases i with
  | rem a p => cases h
  | gen a p => cases h
  | enc a p => cases h
  | ver a p => exact ⟨a, p, rfl, h⟩

/-- Settles O19: a fault writes `OK` to 0, and otherwise the response register is the flattened result. -/
theorem onlyVerSetsTheOkFlag : Obligations.OnlyVerSetsTheOkFlag := by
  intro i s t idle h hok
  obtain ⟨e, -, he⟩ | ⟨check, he⟩ := exec_cases i idle <;> rw [he] at h <;> cases h
  · simp at hok
  · obtain ⟨-, register, -, err⟩ := storeResult_response
      (l := (s.latch i.op i.a i.p).divide (view i.op i.a i.p) i.p) (i := i)
      (latch_latched s i) rfl rfl check
    exact ⟨err, flatten_result_ok ((congrArg RspPorts.ok register).symm.trans hok)⟩

end Sys2Proof.Laws
end

section
/-! PROOF. The invariant holds after reset and every step keeps it (44_sequencer.md R148, R151). -/

namespace Sys2Proof.Laws

open Sys2Proof.Machine Sys2Proof.Safety

/-- The part of `Inv` that speaks of the registers; `Inv` asks besides that the parameters are well formed. -/
def RegistersInv (s : State) : Prop := (s.phase = .run → RunInv s) ∧ (s.phase = .done → DoneInv s)

theorem inv_iff (s : State) : Inv s ↔ s.params.wf = true ∧ RegistersInv s := Iff.rfl

theorem registersInv_of_idle {s : State} (h : s.phase = .idle) : RegistersInv s := by
  simp [RegistersInv, h]

theorem registersInv_of_run {s : State} (hp : s.phase = .run) (h : RunInv s) : RegistersInv s := by
  simp [RegistersInv, hp, h]

theorem registersInv_of_done {s : State} (hp : s.phase = .done) (h : DoneInv s) : RegistersInv s := by
  simp [RegistersInv, hp, h]

/-- The invariant does not speak of the host's side. -/
theorem registersInv_tick {s : State} (h : RegistersInv s) : RegistersInv s.tick := h

/-- R187: fault entry leaves the error response to the latched request. -/
theorem takeFault_doneInv {s : State} {i : Instr} {e : ReqFault} (h : checkInstr s.params i = some e) :
    DoneInv ((s.latch i.op i.a i.p).takeFault e) := by
  refine ⟨rfl, rfl, ?_⟩
  rw [takeFault_latched, takeFault_params, latch_params, transact_of_fault h]
  simp [State.rspRegister, flatten]

/-- R145: storing the remainder of the latched request's dividend view leaves the response to that request. -/
theorem storeResult_doneInv {l : State} (ha : l.a.length = l.alen) (hp : l.p.length = l.plen)
    (h : checkInstr l.params l.latched = none) :
    DoneInv (storeResult (mod2rem (view l.latched.op l.latched.a l.latched.p) l.latched.p) l).toDone := by
  obtain ⟨latched, register, -⟩ := storeResult_response rfl
    (by rw [latched_a, ha]) (by rw [latched_p, hp]) h
  obtain ⟨params, -, -, hta, htalen, htp, htplen⟩ :=
    storeResult_frame (mod2rem (view l.latched.op l.latched.a l.latched.p) l.latched.p) l
  refine ⟨?_, ?_, ?_⟩
  · rw [toDone_a, toDone_alen, hta, htalen, ha]
  · rw [toDone_p, toDone_plen, htp, htplen, hp]
  · rw [register, latched, toDone_params, params, transact_of_valid h]

/-- R185: in `RUN` the latched request is one that passed the check. -/
theorem runInv_check {s : State} (h : RunInv s) : checkInstr s.params s.latched = none := by
  obtain ⟨ha, hp, check, -⟩ := h
  rw [checkInstr, latched_op, latched_a, latched_p, ha, hp, check]

/-- R145, R151: FINISH leaves the response to the latched request. -/
theorem finish_doneInv {s : State} (h : RunInv s) (hl : s.pos = s.viewLen) : DoneInv (finish s) := by
  have check := runInv_check h
  have hd := finish_of_runInv h hl
  obtain ⟨ha, hp, -⟩ := h
  rw [hd, ← latched_op, ← latched_a, ← latched_p]
  exact storeResult_doneInv (l := s.divide (view s.latched.op s.latched.a s.latched.p) s.latched.p) ha hp check

/-- R141: the whole transaction ends in the response to the request. -/
theorem exec_answers (i : Instr) {s : State} (idle : s.phase = .idle) :
    ∃ t, exec i s = .next t ∧ t.phase = .done ∧ t.latched = i ∧ DoneInv t := by
  obtain ⟨e, check, h⟩ | ⟨check, h⟩ := exec_cases i idle
  · exact ⟨_, h, rfl, takeFault_latched s i e, takeFault_doneInv check⟩
  · have hl : ((s.latch i.op i.a i.p).divide (view i.op i.a i.p) i.p).latched = i := latch_latched s i
    have done := storeResult_doneInv (l := (s.latch i.op i.a i.p).divide (view i.op i.a i.p) i.p) rfl rfl
      (by rw [hl]; exact check)
    rw [hl] at done
    obtain ⟨latched, -⟩ := storeResult_response hl rfl rfl check
    exact ⟨_, h, rfl, latched, done⟩

/-- R148, R151: every move keeps the invariant of the registers. -/
theorem step_registersInv {s t : State} (hs : RegistersInv s) (h : step s = .next t) : RegistersInv t := by
  cases step_moves h with
  | reset => exact registersInv_of_idle rfl
  | wait => exact registersInv_tick hs
  | fault rst idle valid e check => exact registersInv_of_done rfl (takeFault_doneInv check)
  | submit rst idle valid check =>
    obtain ⟨run, inv, -⟩ := submit_runInv (s := s.tick) check
    exact registersInv_of_run run inv
  | transaction rst idle valid check t exec =>
    obtain ⟨u, hu, done, -, inv⟩ := exec_answers s.request (s := s.tick) idle
    cases exec.symm.trans hu
    exact registersInv_of_done done inv
  | advance rst run lt =>
    exact registersInv_of_run run (advance_runInv (s := s.tick) (hs.1 run) lt)
  | finish rst run eq =>
    exact registersInv_of_done rfl (finish_doneInv (s := s.tick) (hs.1 run) eq)
  | collect => exact registersInv_of_idle rfl

/-- Settles O35: every move keeps the registers' part, and no step writes the parameters. -/
theorem everyStepKeepsTheInvariant : Obligations.EveryStepKeepsTheInvariant := by
  intro s t hs h
  obtain ⟨wf, inv⟩ := (inv_iff s).mp hs
  obtain ⟨params, -⟩ := step_host_frame h
  exact (inv_iff t).mpr ⟨params ▸ wf, step_registersInv inv h⟩

/-- Settles O34: reset leaves `IDLE`, where the invariant asks of the parameters alone. -/
theorem resetSatisfiesTheInvariant : Obligations.ResetSatisfiesTheInvariant :=
  (inv_iff State.reset).mpr ⟨by decide, registersInv_of_idle rfl⟩

end Sys2Proof.Laws
end

section
/-! PROOF. No state crosses a transaction (10_state.md R31): a relation between two blocks under the same drives that
every step keeps and under which the host cannot tell them apart. -/

namespace Sys2Proof.Laws

open Sys2Proof.Machine Sys2Proof.Safety

/-- R151: in `DONE` the response port holds the answer to the latched request, and COLLECT delivers it. -/
theorem doneInv_response {s : State} (h : DoneInv s) : s.response = some (transact s.params s.latched) := by
  obtain ⟨-, -, register⟩ := h
  rw [State.response, register, ← latched_op, unflatten_flatten_transact]

/-- R145: FINISH leaves the latched request. -/
theorem finish_latched (s : State) : (finish s).latched = s.latched := by
  obtain ⟨-, op, a, -, p, -⟩ := finish_frame s
  rw [State.latched, State.latched, op, a, p]

/-- R27: in `RUN` the length of the dividend view is the latched request's. -/
theorem runInv_viewLen {s : State} (h : RunInv s) :
    s.viewLen = viewLen s.latched.op s.latched.a.length s.latched.p.length := by
  obtain ⟨ha, hp, -⟩ := h
  rw [latched_op, latched_a, latched_p, ha, hp, State.viewLen]

/-- Two blocks that meet the invariant and are at the same point of a transaction. In `RUN` they hold one request, in `DONE`
one answer: the latched requests of a faulting transaction can differ in bits without a pin (log 16). -/
structure Alike (s s' : State) : Prop where
  params : s'.params = s.params
  script : s'.script = s.script
  phase : s'.phase = s.phase
  left : RegistersInv s
  right : RegistersInv s'
  run : s.phase = .run → s'.latched = s.latched ∧ s'.pos = s.pos
  done : s.phase = .done → transact s'.params s'.latched = transact s.params s.latched

section
variable {s s' : State} (h : Alike s s')
include h

theorem Alike.drive_eq : s'.drive = s.drive := by
  rw [State.drive, State.drive, h.script]

/-- R151: alike blocks in `DONE` show the same response register. -/
theorem Alike.rspRegister_eq (done : s.phase = .done) : s'.rspRegister = s.rspRegister := by
  obtain ⟨-, -, register⟩ := h.left.2 done
  obtain ⟨-, -, register'⟩ := h.right.2 (h.phase.trans done)
  rw [register, register', h.done done]

/-- R146: alike blocks hand over the same responses. -/
theorem Alike.handedOver_eq : handedOver s' = handedOver s := by
  rw [handedOver, handedOver, h.phase, h.drive_eq]
  split
  case isTrue collects =>
    have done := collects.1
    rw [doneInv_response (h.left.2 done), doneInv_response (h.right.2 (h.phase.trans done)), h.done done]
  case isFalse => rfl

/-- The clauses of `Alike` that every step keeps, whatever it does. -/
theorem Alike.of_steps {t t' : State} (hs : step s = .next t) (hs' : step s' = .next t') (phase : t'.phase = t.phase)
    (run : t.phase = .run → t'.latched = t.latched ∧ t'.pos = t.pos)
    (done : t.phase = .done → transact s'.params t'.latched = transact s.params t.latched) : Alike t t' := by
  obtain ⟨params, script, -⟩ := step_host_frame hs
  obtain ⟨params', script', -⟩ := step_host_frame hs'
  exact {
    params := by rw [params', params, h.params]
    script := by rw [script', script, h.script]
    phase, run
    done := by rwa [params', params]
    left := step_registersInv h.left hs
    right := step_registersInv h.right hs' }

/-- R185: alike blocks see requests with the same check. -/
theorem Alike.checkInstr_request_eq : checkInstr s'.params s'.request = checkInstr s.params s.request := by
  rw [checkInstr_request, checkInstr_request, h.params, h.drive_eq]

/-- R30, R182: alike blocks see the same request when it passes the check. -/
theorem Alike.request_eq_of_valid (check : checkInstr s.params s.request = none) : s'.request = s.request := by
  rw [request_of_valid check, request_of_valid (h.checkInstr_request_eq.trans check), h.drive_eq]

/-- R141: alike blocks see requests with the same answer. -/
theorem Alike.transact_request_eq : transact s'.params s'.request = transact s.params s.request := by
  cases check : checkInstr s.params s.request with
  | some e => rw [transact_of_fault check, transact_of_fault (h.checkInstr_request_eq.trans check)]
  | none => rw [h.request_eq_of_valid check, h.params]

/-- R143: alike blocks that take a request by SUBMIT are alike after it. -/
theorem Alike.after_submit (hs : step s = .next (submit s.request s.tick))
    (hs' : step s' = .next (submit s'.request s'.tick)) :
    Alike (submit s.request s.tick) (submit s'.request s'.tick) := by
  cases check : checkInstr s.params s.request with
  | some e =>
    have fault := submit_of_fault (s := s.tick) check
    have fault' := submit_of_fault (s := s'.tick) (h.checkInstr_request_eq.trans check)
    rw [fault] at hs ⊢
    rw [fault'] at hs' ⊢
    refine h.of_steps hs hs' rfl nofun fun _ => ?_
    rw [takeFault_latched, takeFault_latched, h.transact_request_eq]
  | none =>
    obtain ⟨run, -, latched, pos⟩ := submit_runInv (s := s.tick) check
    obtain ⟨run', -, latched', pos'⟩ := submit_runInv (s := s'.tick) (h.checkInstr_request_eq.trans check)
    refine h.of_steps hs hs' (run'.trans run.symm) (fun _ => ?_) fun _ => ?_
    · rw [latched', pos', h.request_eq_of_valid check, latched, pos]
      exact ⟨rfl, rfl⟩
    · rw [latched', latched, h.transact_request_eq]

/-- R143, R226: alike blocks that take a request are alike after it. -/
theorem Alike.after_request (rst : s.drive.rst = false) (idle : s.phase = .idle) (valid : s.drive.reqValid = true) :
    ∃ t t', step s = .next t ∧ step s' = .next t' ∧ Alike t t' := by
  have idle' := h.phase.trans idle
  have hs := step_of_request idle rst valid
  have hs' := step_of_request idle' (h.drive_eq ▸ rst) (h.drive_eq ▸ valid)
  cases stepping : s.params.stepping with
  | bitSerial =>
    rw [takeRequest_of_bitSerial (s := s.tick) stepping] at hs
    rw [takeRequest_of_bitSerial (s := s'.tick) (h.params ▸ stepping)] at hs'
    exact ⟨_, _, hs, hs', h.after_submit hs hs'⟩
  | combinational =>
    obtain ⟨t, ht, done, latched, -⟩ := exec_answers s.request (s := s.tick) idle
    obtain ⟨t', ht', done', latched', -⟩ := exec_answers s'.request (s := s'.tick) idle'
    rw [takeRequest_of_combinational (s := s.tick) stepping, ht] at hs
    rw [takeRequest_of_combinational (s := s'.tick) (h.params ▸ stepping), ht'] at hs'
    refine ⟨t, t', hs, hs', h.of_steps hs hs' (done'.trans done.symm) (fun run => ?_) fun _ => ?_⟩
    · rw [done] at run
      cases run
    · rw [latched', latched, h.transact_request_eq]

/-- R148: alike blocks in `RUN` advance together and finish together. -/
theorem Alike.after_blockStep (rst : s.drive.rst = false) (run : s.phase = .run) :
    ∃ t t', step s = .next t ∧ step s' = .next t' ∧ Alike t t' := by
  have run' := h.phase.trans run
  have inv := h.left.1 run
  have inv' := h.right.1 run'
  obtain ⟨latched, pos⟩ := h.run run
  obtain ⟨ready, le, -⟩ := runInv_ready inv
  obtain ⟨ready', -⟩ := runInv_ready inv'
  have len : s'.viewLen = s.viewLen := by rw [runInv_viewLen inv', runInv_viewLen inv, latched]
  have hs := step_of_run rst run
  have hs' := step_of_run (h.drive_eq ▸ rst) run'
  rcases Nat.lt_or_eq_of_le le with lt | eq
  · rw [blockStep_of_advance (s := s.tick) ready lt] at hs
    rw [blockStep_of_advance (s := s'.tick) ready' (pos ▸ len ▸ lt)] at hs'
    refine ⟨_, _, hs, hs', h.of_steps hs hs' h.phase (fun _ => ⟨latched, congrArg (· + 1) pos⟩) fun done => ?_⟩
    cases run.symm.trans done
  · rw [blockStep_of_finish (s := s.tick) ready eq] at hs
    rw [blockStep_of_finish (s := s'.tick) ready' (pos ▸ len ▸ eq)] at hs'
    refine ⟨_, _, hs, hs', h.of_steps hs hs' rfl nofun fun _ => ?_⟩
    rw [finish_latched, finish_latched]
    exact congrArg₂ transact h.params latched

/-- R31: alike blocks step together and are alike after it. -/
theorem Alike.after_step : ∃ t t', step s = .next t ∧ step s' = .next t' ∧ Alike t t' := by
  cases rst : s.drive.rst with
  | true =>
    have hs := step_of_reset rst
    have hs' := step_of_reset (h.drive_eq ▸ rst)
    exact ⟨_, _, hs, hs', h.of_steps hs hs' rfl nofun nofun⟩
  | false =>
    have rst' : s'.drive.rst = false := h.drive_eq ▸ rst
    cases phase : s.phase with
    | idle =>
      cases valid : s.drive.reqValid with
      | true => exact h.after_request rst phase valid
      | false =>
        have hs := step_of_no_request phase rst valid
        have hs' := step_of_no_request (h.phase.trans phase) rst' (h.drive_eq ▸ valid)
        exact ⟨_, _, hs, hs', h.of_steps hs hs' h.phase h.run h.done⟩
    | run => exact h.after_blockStep rst phase
    | done =>
      have phase' := h.phase.trans phase
      cases ready : s.drive.rspReady with
      | true =>
        have hs := step_of_collect phase rst ready
        have hs' := step_of_collect phase' rst' (h.drive_eq ▸ ready)
        exact ⟨_, _, hs, hs', h.of_steps hs hs' rfl nofun nofun⟩
      | false =>
        have hs := step_of_hold phase rst ready
        have hs' := step_of_hold phase' rst' (h.drive_eq ▸ ready)
        exact ⟨_, _, hs, hs', h.of_steps hs hs' h.phase h.run h.done⟩

end

/-- R31: alike blocks run together, deliver the same responses on the way and are alike at the end. -/
theorem Alike.after_run (n : Nat) {s s' : State} (h : Alike s s') :
    ∃ (t t' : State) (new : List (Option Response)), Sys2Proof.core.run n s = .next t ∧
      Sys2Proof.core.run n s' = .next t' ∧ Alike t t' ∧
      t.delivered = s.delivered ++ new ∧ t'.delivered = s'.delivered ++ new := by
  induction n generalizing s s' with
  | zero => exact ⟨s, s', [], rfl, rfl, h, by simp, by simp⟩
  | succ n ih =>
    obtain ⟨u, u', hs, hs', hu⟩ := h.after_step
    obtain ⟨t, t', new, ht, ht', alike, delivered, delivered'⟩ := ih hu
    obtain ⟨-, -, first⟩ := step_host_frame hs
    obtain ⟨-, -, first'⟩ := step_host_frame hs'
    refine ⟨t, t', handedOver s ++ new, ?_, ?_, alike, ?_, ?_⟩
    · rw [run_succ n hs, ht]
    · rw [run_succ n hs', ht']
    · rw [delivered, first, List.append_assoc]
    · rw [delivered', first', h.handedOver_eq, List.append_assoc]

/-- Two `IDLE` blocks under the same drives are alike, whatever their registers hold. -/
theorem alike_of_idle {s s' : State} (idle : s.phase = .idle) (idle' : s'.phase = .idle)
    (params : s'.params = s.params) (script : s'.script = s.script) : Alike s s' where
  params := params
  script := script
  phase := idle'.trans idle.symm
  left := registersInv_of_idle idle
  right := registersInv_of_idle idle'
  run := by simp [idle]
  done := by simp [idle]

/-- Settles O41: the two blocks are alike, and stay so. -/
theorem noStateCrossesATransaction : Obligations.NoStateCrossesATransaction := by
  intro s s' n idle idle' params script
  obtain ⟨t, t', new, ht, ht', alike, delivered, delivered'⟩ := (alike_of_idle idle idle' params script).after_run n
  have valid : t'.rspValid = t.rspValid := by rw [State.rspValid, State.rspValid, alike.phase]
  refine ⟨t, t', new, ht, ht', alike.phase, ?_, valid.symm, fun hv => ?_, delivered, delivered'⟩
  · rw [State.reqReady, State.reqReady, alike.phase]
  · have done : t.phase = .done := of_decide_eq_true hv
    rw [State.rspPorts, State.rspPorts, valid, hv, alike.rspRegister_eq done]
    rfl

end Sys2Proof.Laws
end

section
/-! PROOF. The dividend view and the accesses in `RUN` (20_memory.md R52 to R54). -/

namespace Sys2Proof.Laws

open Sys2Proof.Machine Sys2Proof.Safety

/-- R27, R52: `N` is the length of the latched dividend view. -/
theorem latched_view_length {s : State} (ha : s.a.length = s.alen) (hp : s.p.length = s.plen) (hk : 1 ≤ s.plen) :
    (view (opOfCode s.op) s.a s.p).length = s.viewLen := by
  rw [view_length (hp ▸ hk), ha, hp, State.viewLen]

/-- R52: `Dbit(i)` is bit `i` of the latched dividend view, at every index. -/
theorem dbit_eq_view_getD {s : State} (ha : s.a.length = s.alen) (i : Nat) :
    s.dbit i = (view (opOfCode s.op) s.a s.p).getD i false := by
  rw [view_getD, ha, State.dbit]

/-- Settles O29: the view by its definition, its length and bits by the two lemmas on the latched view. -/
theorem dbitReadsTheDividendView : Obligations.DbitReadsTheDividendView := by
  constructor
  · intro a p
    exact ⟨rfl, rfl, rfl, rfl⟩
  · intro s ha hp hk
    exact ⟨latched_view_length ha hp hk, fun i _ => dbit_eq_view_getD ha i⟩

/-- R23 to R25: what the check of a block step asks of the registers. -/
theorem windowReady_iff {s : State} :
    windowReady s = true ↔ s.a.length = s.alen ∧ s.p.length = s.plen ∧ s.w.length = s.plen ∧ 1 ≤ s.plen := by
  simp only [windowReady, Bool.and_eq_true, decide_eq_true_eq, and_assoc]

/-- R14: a read over the live length of a space that holds exactly its live bits gives the whole register. -/
theorem memRead_liveLen {s : State} {sp : Space} (h : (s.space sp).length = s.liveLen sp) :
    s.memRead sp 0 (s.liveLen sp) = some (s.space sp) := by
  rw [State.memRead, if_pos (Nat.zero_add _).le, List.drop_zero, ← h, List.take_length]

/-- Settles O30: the invariant of `RUN` makes each register as long as its live length. -/
theorem accessesInRunAreInBounds : Obligations.AccessesInRunAreInBounds := by
  intro s inv run
  obtain ⟨-, runInv, -⟩ := inv
  obtain ⟨ready, pos, -⟩ := runInv_ready (runInv run)
  obtain ⟨ha, hp, hw, -⟩ := windowReady_iff.mp ready
  exact ⟨ready, pos, memRead_liveLen (sp := .p) hp, memRead_liveLen (sp := .w) hw, memRead_liveLen (sp := .a) ha⟩

end Sys2Proof.Laws
end

section
/-! PROOF. The decoder and the encoder are inverse to each other (30_encoding.md R70 to R72), and no reserved code is
used (R75). -/

namespace Sys2Proof.Laws

open Sys2Proof.Machine Sys2Proof.Safety

/-- R71, R75: each of the four codes is the code of the operation it selects. -/
@[simp] theorem codeOfOp_opOfCode (c : BitVec 2) : codeOfOp (opOfCode c) = c := by
  revert c
  decide

theorem opOfCode_inj {c c' : BitVec 2} : opOfCode c = opOfCode c' ↔ c = c' :=
  (Function.LeftInverse.injective codeOfOp_opOfCode).eq_iff

/-- R20: a request is its operation and its two operands. -/
theorem instr_ext_iff {i j : Instr} : i = j ↔ i.op = j.op ∧ i.a = j.a ∧ i.p = j.p := by
  constructor
  · rintro rfl
    exact ⟨rfl, rfl, rfl⟩
  · rintro ⟨op, a, p⟩
    rw [← ofParts_self i, ← ofParts_self j, op, a, p]

/-- R70: the port image of a request with further bits on the operand ports, beyond the lengths. -/
theorem decode_encode_append (i : Instr) (beyondA beyondP : BitSeq) :
    decode { encode i with a := i.a ++ beyondA, p := i.p ++ beyondP } = i := by
  rw [decode, encode, opOfCode_codeOfOp, assemble_append, assemble_append, ofParts_self]

theorem decode_encode (i : Instr) : decode (encode i) = i := by
  rw [decode, encode, opOfCode_codeOfOp, assemble_self, assemble_self, ofParts_self]

/-- Settles O2: the code selects the operation back, and an operand is read up to its own length. -/
theorem encodedRequestDecodesToItself : Obligations.EncodedRequestDecodesToItself :=
  fun i beyondA beyondP => ⟨decode_encode i, decode_encode_append i beyondA beyondP⟩

/-- R72: two ports give the same operand exactly when the lengths and the bits below them agree. -/
theorem assemble_eq_iff {port port' : BitSeq} {n n' : Nat} :
    assemble port n = assemble port' n' ↔ n = n' ∧ ∀ i, i < n → port.getD i false = port'.getD i false := by
  constructor
  · intro h
    have len : n = n' := by rw [← assemble_length port n, h, assemble_length]
    subst len
    refine ⟨rfl, fun i hi => ?_⟩
    rw [← assemble_getD port hi, h, assemble_getD port' hi]
  · rintro ⟨rfl, bits⟩
    exact List.map_congr_left fun i hi => bits i (List.mem_range.mp hi)

/-- R72: the requests on two port images are the same in each of their parts. -/
theorem decode_eq_iff {q q' : ReqPorts} :
    decode q = decode q' ↔
      q.op = q'.op ∧ assemble q.a q.alen = assemble q'.a q'.alen ∧ assemble q.p q.plen = assemble q'.p q'.plen := by
  rw [instr_ext_iff, decode_op, decode_op, decode_a, decode_a, decode_p, decode_p, opOfCode_inj]

/-- Settles O3: a request is its three parts, and an operand is the bits of its port below the length. -/
theorem operandsAreThePortBitsBelowTheirLengths : Obligations.OperandsAreThePortBitsBelowTheirLengths := by
  intro q
  rw [decode_a, decode_p]
  refine ⟨assemble_length _ _, assemble_length _ _, fun _ => assemble_getD q.a, fun _ => assemble_getD q.p, fun q' => ?_⟩
  rw [decode_eq_iff, assemble_eq_iff, assemble_eq_iff]
  tauto

/-- R70, R72: what a canonical port image lists. -/
theorem canonical_iff {q : ReqPorts} : q.canonical = true ↔ q.a.length = q.alen ∧ q.p.length = q.plen := by
  simp only [ReqPorts.canonical, Bool.and_eq_true, decide_eq_true_eq]

/-- Settles O4: an operand port that lists exactly the live bits is the operand. -/
theorem decodedCanonicalPortsEncodeBack : Obligations.DecodedCanonicalPortsEncodeBack := by
  rintro ⟨op, alen, a, plen, p⟩ canonical
  obtain ⟨rfl, rfl⟩ : a.length = alen ∧ p.length = plen := canonical_iff.mp canonical
  rw [encode, decode_op, decode_a, decode_p, codeOfOp_opOfCode, assemble_self, assemble_self]

/-- R73: the flattening of a response never has the reserved code 3. -/
theorem flatten_err_ne_reserved (x : Response) : (flatten x).err ≠ 0b11#2 := by
  have noFault_ne : noFault ≠ 0b11#2 := by decide
  cases x with
  | rspErr e => cases e <;> decide
  | rspRem r => exact noFault_ne
  | rspEnc r cw => exact noFault_ne
  | rspVer ok => exact noFault_ne

/-- R34: the response ports of a valid response show the response register. -/
theorem rspPorts_of_valid {s : State} (valid : s.rspValid = true) : s.rspPorts = s.rspRegister := if_pos valid

/-- Settles O33: in `DONE` the invariant makes the register a flattened response. -/
theorem noReservedCodeIsUsed : Obligations.NoReservedCodeIsUsed := by
  refine ⟨codeOfOp_opOfCode, fun s inv valid => ?_⟩
  obtain ⟨-, -, doneInv⟩ := inv
  obtain ⟨-, -, register⟩ := doneInv (of_decide_eq_true valid)
  rw [rspPorts_of_valid valid, register]
  exact flatten_err_ne_reserved _

end Sys2Proof.Laws
end

section
/-! PROOF. The table words: requests with empty operands (30_encoding.md R71, R75; log 7). -/

namespace Sys2Proof.Laws

open Sys2Proof.Machine

/-- Settles O1: the table words and the port images are closed, and the decoder computes. -/
theorem operationCodesSelectTheFourOperations : Obligations.OperationCodesSelectTheFourOperations := by
  unfold Obligations.OperationCodesSelectTheFourOperations
  decide

/-- A table word of at least 2 bits is decoded from its port image. -/
theorem decodeTableWord_eq_some {nbits w : Nat} {i : Instr} (h : decodeTableWord nbits w = some i) :
    decode (portsOfTableWord w) = i := by
  obtain ⟨-, decoded⟩ := Option.ite_none_left_eq_some.mp h
  exact Option.some.inj decoded

/-- R142: the empty divisor of a table word is shorter than any operation takes. -/
theorem checkInstr_tableWord (c : Config.Params) (w : Nat) :
    checkInstr c (decode (portsOfTableWord w)) = some .invalidInputLength := by
  refine check_eq_some_iff.mpr (.inl ⟨?_, rfl⟩)
  rw [decode_p, assemble_length]
  exact one_le_kmin _

/-- R30: operands without bits come through ports of any width, so the block sees the table word's request. -/
theorem withFetchWord_request (s : State) (nbits w : Nat) :
    (s.withFetchWord nbits w).request = decode (portsOfTableWord w) := rfl

/-- Settles O6: the request fails the check, and a failing request is taken alike under both steppings. -/
theorem fetchWordIsRunByTheNextStep : Obligations.FetchWordIsRunByTheNextStep := by
  intro s nbits w i h
  obtain rfl := decodeTableWord_eq_some h
  have presents : Safety.Presents (s.withFetchWord nbits w) (decode (portsOfTableWord w)) :=
    ⟨rfl, rfl, withFetchWord_request s nbits w⟩
  rw [step_of_presents rfl presents, takeRequest_of_fault rfl (checkInstr_tableWord _ w),
    exec_of_fault rfl (checkInstr_tableWord _ w)]
  rfl

end Sys2Proof.Laws
end

section
/-! PROOF. The moves of the window and the forms of the division loop (40_modulo2_divider.md R90 to R94). -/

namespace Sys2Proof.Laws

open Sys2Proof.Machine

/-- R90: bit `i` of the window after the conditional XOR. -/
theorem condxor_getD {w v : BitSeq} (h : w.length = v.length) (i : Nat) :
    (condxor w v).getD i false =
      if leadOf w then Bool.xor (w.getD i false) (v.getD i false) else w.getD i false := by
  cases lead : leadOf w with
  | true => rw [condxor_of_lead v lead, xor_getD h, if_pos rfl]
  | false => rw [condxor_of_not_lead v lead, if_neg Bool.false_ne_true]

/-- R91: the last bit of the shifted window is the bit taken in. -/
theorem shiftin_getD_last (w : BitSeq) (b : Bool) : (shiftin w b).getD (w.length - 1) false = b := by
  rw [shiftin, List.getD_append_right _ _ _ _ (List.length_drop ..).le, List.length_drop, Nat.sub_self]
  rfl

/-- R91: below its last bit the shifted window is the old window, one place on. -/
theorem shiftin_getD_of_lt {w : BitSeq} (b : Bool) {i : Nat} (h : i + 1 < w.length) :
    (shiftin w b).getD i false = w.getD (i + 1) false := by
  have below : i < (w.drop 1).length := by
    rw [List.length_drop]
    omega
  rw [shiftin, List.getD_append _ _ _ _ below, List.getD_eq_getElem?_getD, List.getD_eq_getElem?_getD,
    List.getElem?_drop, Nat.add_comm]

/-- Settles O43: the lemmas on the bits and the length of each move. -/
theorem windowMovesBitByBit : Obligations.WindowMovesBitByBit := by
  intro w v b hv hw
  refine ⟨condxor_length hw, fun i _ => ?_, ?_, ?_, fun i hi => shiftin_getD_of_lt b (hw ▸ hi)⟩
  · rw [condxor_getD hw, leadOf_eq_getD]
  · rw [shiftin_length b (hw ▸ hv), hw]
  · rw [← hw, shiftin_getD_last]

/-- R93: one conditional XOR is the same in both formulations. -/
theorem condxorSkip_eq_condxor (w v : BitSeq) : condxorSkip w v = condxor w v := by
  rw [condxorSkip, condxor, xor_zeros]

theorem slideSkip_eq_slide (v rest : BitSeq) : ∀ w : BitSeq, slideSkip v w rest = slide v w rest := by
  induction rest with
  | nil => exact fun _ => rfl
  | cons b rest ih =>
    intro w
    rw [slideSkip, slide, condxorSkip_eq_condxor, ih]

/-- Settles O45: both formulations agree in each conditional XOR, hence in the loop and after it. -/
theorem skippingTheZeroXorChangesNothing : Obligations.SkippingTheZeroXorChangesNothing := by
  intro d v
  rw [mod2rem, mod2remSkip, finalWindow, slideSkip_eq_slide, condxorSkip_eq_condxor]

/-- R94: before the last round, the uniform form has the window of the loop of R92. -/
theorem foldl_uniformRound_eq_windowAfter {d v : BitSeq} :
    ∀ {j : Nat}, j ≤ d.length - v.length →
      (List.range j).foldl (uniformRound d v) (d.take v.length) = windowAfter d v j := by
  intro j
  induction j with
  | zero => exact fun _ => (windowAfter_zero d v).symm
  | succ j ih =>
    intro hj
    have lt : j < d.length - v.length := hj
    rw [List.range_succ, List.foldl_append, ih lt.le, List.foldl_cons, List.foldl_nil, uniformRound, if_pos lt,
      windowAfter_succ (by omega)]

/-- R94: the last round of the uniform form is the final conditional XOR of R92. -/
theorem mod2remUniform_eq_mod2rem (d v : BitSeq) : mod2remUniform d v = mod2rem d v := by
  rw [mod2remUniform, List.range_succ, List.foldl_append, foldl_uniformRound_eq_windowAfter le_rfl, List.foldl_cons,
    List.foldl_nil, uniformRound, if_neg (lt_irrefl _), ← finalWindow_eq, mod2rem]

/-- R94: one leading bit is tested for each bit taken in, and one more at the end. -/
theorem leadBits_length (v rest : BitSeq) : ∀ w : BitSeq, (leadBits v w rest).length = rest.length + 1 := by
  induction rest with
  | nil => exact fun _ => rfl
  | cons b rest ih =>
    intro w
    rw [leadBits, List.length_cons, List.length_cons, ih]

theorem testedBits_length (d v : BitSeq) : (testedBits d v).length = d.length - v.length + 1 := by
  rw [testedBits, leadBits_length, List.length_drop]

/-- Settles O46: the uniform form follows the loop's windows, and the loop tests a bit a round. -/
theorem uniformFormIsTheDivision : Obligations.UniformFormIsTheDivision :=
  fun d v _ _ => ⟨(mod2remUniform_eq_mod2rem d v).symm, testedBits_length d v⟩

end Sys2Proof.Laws
end

section
/-! PROOF. The division in its extreme cases: minimal dividends, one-bit and all-zero divisors, all-zero dividends
(40_modulo2_divider.md R96 to R99). -/

namespace Sys2Proof.Laws

open Sys2Proof.Machine

/-- R95, R160: the remainder is one bit shorter than the divisor. -/
theorem mod2rem_length {d v : BitSeq} (hv : 1 ≤ v.length) (h : v.length ≤ d.length) :
    (mod2rem d v).length = v.length - 1 := by
  rw [mod2rem, List.length_drop, finalWindow_length hv h]

/-- R96: a dividend as long as the divisor leaves the loop no bit to take in. -/
theorem mod2rem_of_length_eq {d v : BitSeq} (h : d.length = v.length) : mod2rem d v = (condxor d v).drop 1 := by
  rw [mod2rem, finalWindow_eq, h, Nat.sub_self, windowAfter_zero, ← h, List.take_length]

/-- Settles O47: no round of the loop for the minimal dividend, no bit left of a one-bit window. -/
theorem minimalDividendAndOneBitDivisor : Obligations.MinimalDividendAndOneBitDivisor :=
  ⟨fun _ _ _ h => mod2rem_of_length_eq h,
    fun _ b hd => List.eq_nil_of_length_eq_zero (mod2rem_length (v := [b]) le_rfl hd)⟩

/-- R91: shifting the dividend's next bit in moves the window one place along the dividend. -/
theorem shiftin_take_drop {d : BitSeq} {k j : Nat} (hk : 1 ≤ k) (h : k + j < d.length) :
    shiftin ((d.drop j).take k) (d.getD (k + j) false) = (d.drop (j + 1)).take k := by
  obtain ⟨m, rfl⟩ : ∃ m, k = m + 1 := ⟨k - 1, by omega⟩
  have index : j + 1 + m = m + 1 + j := by omega
  rw [shiftin, List.drop_take, List.drop_drop, List.take_add_one, List.getElem?_drop, index,
    List.getElem?_eq_getElem h, List.getD_eq_getElem _ _ h]
  rfl

/-- R92: while the conditional XORs change nothing, the window is the part of the dividend it has reached. -/
theorem windowAfter_of_condxor_fixed {d v : BitSeq} (hv : 1 ≤ v.length) :
    ∀ {j : Nat}, v.length + j ≤ d.length →
      (∀ i, i < j → condxor ((d.drop i).take v.length) v = (d.drop i).take v.length) →
      windowAfter d v j = (d.drop j).take v.length := by
  intro j
  induction j with
  | zero => exact fun _ _ => windowAfter_zero d v
  | succ j ih =>
    intro hj fixed
    rw [windowAfter_succ hj, ih (by omega) fun i hi => fixed i (by omega), fixed j (by omega), shiftin_take_drop hv hj]

/-- R92: when no conditional XOR changes anything, the remainder is the dividend's last `k - 1` bits. -/
theorem mod2rem_of_condxor_fixed {d v : BitSeq} (hv : 1 ≤ v.length) (h : v.length ≤ d.length)
    (fixed : ∀ i, i ≤ d.length - v.length → condxor ((d.drop i).take v.length) v = (d.drop i).take v.length) :
    mod2rem d v = d.drop (d.length - v.length + 1) := by
  have last : (d.drop (d.length - v.length)).take v.length = d.drop (d.length - v.length) :=
    List.take_of_length_le (by rw [List.length_drop]; omega)
  rw [mod2rem, finalWindow_eq, windowAfter_of_condxor_fixed hv (by omega) fun i hi => fixed i hi.le, fixed _ le_rfl,
    last, List.drop_drop]

/-- R98: XOR with the all-zero divisor changes nothing, whatever the leading bit. -/
theorem condxor_zeros {w : BitSeq} {k : Nat} (h : w.length = k) : condxor w (BitSeq.zeros k) = w := by
  rw [← h, condxor, xor_zeros, ite_self]

/-- Settles O48: the all-zero divisor changes no window. -/
theorem allZeroDivisorGivesTheTail : Obligations.AllZeroDivisorGivesTheTail := by
  intro d k hk hd
  have len (i : Nat) (hi : i ≤ d.length - k) : ((d.drop i).take k).length = k := by
    rw [List.length_take, List.length_drop]
    omega
  have tail := mod2rem_of_condxor_fixed (d := d) (v := BitSeq.zeros k)
  rw [zeros_length] at tail
  exact tail hk hd fun i hi => condxor_zeros (len i hi)

/-- R28: the leading bit of the window that has reached bit `i` of the dividend is that bit. -/
theorem leadOf_take_drop {k : Nat} (hk : 1 ≤ k) (d : BitSeq) (i : Nat) :
    leadOf ((d.drop i).take k) = d.getD i false := by
  rw [leadOf_eq_getD, List.getD_eq_getElem?_getD, List.getD_eq_getElem?_getD, List.getElem?_take_of_lt hk,
    List.getElem?_drop, Nat.add_zero]

theorem zeros_drop (n i : Nat) : (BitSeq.zeros n).drop i = BitSeq.zeros (n - i) := List.drop_replicate

/-- Settles O49: no window of the all-zero dividend has a leading 1. -/
theorem allZeroDividendGivesZeros : Obligations.AllZeroDividendGivesZeros := by
  intro n v hv hn
  have fixed (i : Nat) :
      condxor (((BitSeq.zeros n).drop i).take v.length) v = ((BitSeq.zeros n).drop i).take v.length :=
    condxor_of_not_lead v ((leadOf_take_drop hv _ i).trans (zeros_getD n i))
  have count : n - (n - v.length + 1) = v.length - 1 := by omega
  rw [mod2rem_of_condxor_fixed hv ((zeros_length n).symm ▸ hn) fun i _ => fixed i, zeros_length, zeros_drop, count]

end Sys2Proof.Laws
end

section
/-! PROOF. The operation REM as a whole next state (40_modulo2_divider.md R95). -/

namespace Sys2Proof.Laws

open Sys2Proof.Machine

/-- R95, R142: REM answers `InvalidInputLength` for an empty divisor and for a dividend shorter than the divisor. -/
theorem checkInstr_rem_invalid {c : Config.Params} {a p : BitSeq} (h : p.length < 1 ∨ a.length < p.length) :
    checkInstr c (.rem a p) = some .invalidInputLength := by
  refine check_eq_some_iff.mpr ?_
  rcases Nat.lt_or_ge p.length 1 with short | long
  · exact .inl ⟨short, rfl⟩
  · exact .inr (.inl ⟨long, h.resolve_left long.not_gt, rfl⟩)

/-- R95, R182: REM answers `CapacityExceeded` for operands of legal lengths of which one does not fit. -/
theorem checkInstr_rem_capacity {c : Config.Params} {a p : BitSeq} (hp : 1 ≤ p.length) (ha : p.length ≤ a.length)
    (h : c.maxN.exceededBy a.length = true ∨ c.maxK.exceededBy p.length = true) :
    checkInstr c (.rem a p) = some .capacityExceeded :=
  check_eq_some_iff.mpr (.inr (.inr ⟨hp, ha, exceedsCapacity_eq_true.mpr h, rfl⟩))

/-- R95, R142: REM takes operands of legal lengths that both fit. -/
theorem checkInstr_rem_valid {c : Config.Params} {a p : BitSeq} (hp : 1 ≤ p.length) (ha : p.length ≤ a.length)
    (hN : c.maxN.exceededBy a.length = false) (hK : c.maxK.exceededBy p.length = false) :
    checkInstr c (.rem a p) = none :=
  check_eq_none_iff.mpr ⟨hp, ha, exceedsCapacity_eq_false.mpr ⟨hN, hK⟩⟩

/-- Settles O7: the check decides the case, and what `exec` does in it is the record update. -/
theorem remAnswersByItsRule : Obligations.RemAnswersByItsRule := by
  intro a p s idle
  refine ⟨fun h => ?_, fun hp ha h => ?_, fun hp ha hN hK => ⟨mod2rem_length hp ha, ?_⟩⟩
  · exact exec_of_fault idle (checkInstr_rem_invalid h)
  · exact exec_of_fault idle (checkInstr_rem_capacity hp ha h)
  · exact exec_of_valid idle (checkInstr_rem_valid hp ha hN hK)

end Sys2Proof.Laws
end

section
/-! PROOF. The operation GEN as a whole next state (41_crc_remainder_gen.md R110). -/

namespace Sys2Proof.Laws

open Sys2Proof.Machine

/-! R142 in the spelling of R110 and R120: what the check says of an operation that pads its operand. -/
section PaddingOperation

variable {c : Config.Params} {o : Op} {m k : Nat} (kmin_eq : kmin o = 2) (viewLen_eq : viewLen o m k = m + k - 1)
include kmin_eq viewLen_eq

/-- R110: a padded dividend is too short exactly when nothing was padded. -/
theorem check_padded_invalid (h : k < 2 ∨ m = 0) : check c o m k = some .invalidInputLength := by
  rw [check_eq_some_iff, kmin_eq, viewLen_eq]
  rcases Nat.lt_or_ge k 2 with short | long
  · exact .inl ⟨short, rfl⟩
  · have empty : m = 0 := h.resolve_left long.not_gt
    exact .inr (.inl ⟨long, by omega, rfl⟩)

theorem check_padded_capacity (hk : 2 ≤ k) (hm : 1 ≤ m)
    (h : c.maxN.exceededBy (m + k - 1) = true ∨ c.maxK.exceededBy k = true) :
    check c o m k = some .capacityExceeded := by
  rw [check_eq_some_iff, kmin_eq, viewLen_eq]
  exact .inr (.inr ⟨hk, by omega, exceedsCapacity_eq_true.mpr h, rfl⟩)

theorem check_padded_valid (hk : 2 ≤ k) (hm : 1 ≤ m)
    (hN : c.maxN.exceededBy (m + k - 1) = false) (hK : c.maxK.exceededBy k = false) : check c o m k = none := by
  rw [check_eq_none_iff, kmin_eq, viewLen_eq]
  exact ⟨hk, by omega, exceedsCapacity_eq_false.mpr ⟨hN, hK⟩⟩

end PaddingOperation

/-- R141, R145: `exec` of a request that passes the check leaves `POS` at `N`, the length of the dividend view. -/
theorem exec_of_valid_pos {s : State} {i : Instr} (idle : s.phase = .idle) (h : checkInstr s.params i = none) :
    exec i s = .next (storeResult (mod2rem (view i.op i.a i.p) i.p)
      { s.latch i.op i.a i.p with
        w := finalWindow (view i.op i.a i.p) i.p, pos := viewLen i.op i.a.length i.p.length }).toDone := by
  obtain ⟨hp, -⟩ := lengths_of_valid h
  rw [exec_of_valid idle h, State.divide, view_length hp]

/-- Settles O8: the check decides the case, and what `exec` does in it is the record update. -/
theorem genAnswersByItsRule : Obligations.GenAnswersByItsRule := by
  intro a p s idle
  refine ⟨fun h => ?_, fun hp ha h => ?_, fun hp ha hN hK => ?_⟩
  · exact exec_of_fault (i := .gen a p) idle (check_padded_invalid rfl rfl h)
  · exact exec_of_fault (i := .gen a p) idle (check_padded_capacity rfl rfl hp ha h)
  · have valid : checkInstr s.params (.gen a p) = none := check_padded_valid rfl rfl hp ha hN hK
    obtain ⟨one_le, le⟩ := lengths_of_valid valid
    exact ⟨mod2rem_length one_le le, exec_of_valid_pos idle valid⟩

end Sys2Proof.Laws
end

section
/-! PROOF. The operation ENC (42_crc_encoder.md R120, R121, R123; 49_laws.md R163): its whole next state, that it is GEN with a
codeword, and the shape of the codeword. -/

namespace Sys2Proof.Laws

open Sys2Proof.Machine Sys2Proof.Safety

/-- Settles O9: the check decides the case, and what `exec` does in it is the record update. -/
theorem encAnswersByItsRule : Obligations.EncAnswersByItsRule := by
  intro a p s idle
  refine ⟨fun h => ?_, fun hp ha h => ?_, fun hp ha hN hK => ?_⟩
  · exact exec_of_fault (i := .enc a p) idle (check_padded_invalid rfl rfl h)
  · exact exec_of_fault (i := .enc a p) idle (check_padded_capacity rfl rfl hp ha h)
  · have valid : checkInstr s.params (.enc a p) = none := check_padded_valid rfl rfl hp ha hN hK
    obtain ⟨one_le, le⟩ := lengths_of_valid valid
    exact ⟨mod2rem_length one_le le, exec_of_valid_pos idle valid⟩

/-- R123: ENC and GEN are checked alike. -/
theorem checkInstr_enc_eq_gen (c : Config.Params) (a p : BitSeq) :
    checkInstr c (.enc a p) = checkInstr c (.gen a p) := rfl

/-- R123, R148: ENC and GEN divide the same view in as many steps. -/
theorem blockSteps_enc_eq_gen (c : Config.Params) (a p : BitSeq) :
    blockSteps c (.enc a p) = blockSteps c (.gen a p) := rfl

theorem faultCode_ne_noFault (e : ReqFault) : faultCode e ≠ noFault := by cases e <;> decide

/-- Settles O18: one check decides both, and after a passed one both store the remainder of the same view. -/
theorem encAgreesWithGen : Obligations.EncAgreesWithGen := by
  intro a p s idle
  have steps := blockSteps_enc_eq_gen s.params a p
  cases check : checkInstr s.params (.gen a p) with
  | some e =>
    have enc := exec_of_fault idle ((checkInstr_enc_eq_gen s.params a p).trans check)
    have gen := exec_of_fault idle check
    exact ⟨_, _, enc, gen, rfl, fun noErr => absurd noErr (faultCode_ne_noFault e), rfl, rfl, steps⟩
  | none =>
    have enc := exec_of_valid idle ((checkInstr_enc_eq_gen s.params a p).trans check)
    have gen := exec_of_valid idle check
    exact ⟨_, _, enc, gen, rfl, fun _ => ⟨rfl, rfl, rfl⟩, rfl, rfl, steps⟩

/-- R181: a request is free of `InvalidInputLength` when the first two tests of R142 let it pass. -/
theorem not_invalidLength_iff {i : Instr} :
    ¬ InvalidLength i ↔ kmin i.op ≤ i.p.length ∧ i.p.length ≤ viewLen i.op i.a.length i.p.length := by
  cases i <;> simp only [InvalidLength, Instr.op, Instr.a, Instr.p, kmin, viewLen] <;> omega

theorem requestLen_eq_viewLen (i : Instr) : requestLen i = viewLen i.op i.a.length i.p.length := by
  cases i <;> rfl

/-- R142, R181, R182: the requests that pass the check are the valid ones. -/
theorem checkInstr_eq_none_iff_valid {c : Config.Params} {i : Instr} : checkInstr c i = none ↔ Valid c i := by
  rw [checkInstr, check_eq_none_iff, exceedsCapacity_eq_false, ← and_assoc, ← not_invalidLength_iff,
    ← requestLen_eq_viewLen, Valid]

/-- R121: a codeword differs from the padded message only in the bits that take the padding's place. -/
theorem append_eq_xor_padded (a : BitSeq) {r : BitSeq} {n : Nat} (h : r.length = n) :
    a ++ r = BitSeq.xor (a ++ BitSeq.zeros n) (BitSeq.zeros a.length ++ r) := by
  rw [xor_append _ _ (zeros_length _).symm, xor_zeros, ← h, zeros_xor]

/-- R120: the operand, the remainder and the codeword in the state that answers a valid ENC. -/
theorem exec_enc_stores_codeword {a p : BitSeq} {s t : State} (idle : s.phase = .idle)
    (check : checkInstr s.params (.enc a p) = none) (h : exec (.enc a p) s = .next t) :
    t.a = a ∧ t.r = mod2rem (padded a p) p ∧ t.rlen = p.length - 1 ∧ t.cw = a ++ t.r ∧
      t.cwlen = a.length + p.length - 1 := by
  rw [exec_of_valid idle check] at h
  cases h
  exact ⟨rfl, rfl, rfl, rfl, rfl⟩

/-- Settles O52: the codeword stored is `a ++ r`, and `r` is as long as the padding. -/
theorem codewordIsMessageThenRemainder : Obligations.CodewordIsMessageThenRemainder := by
  intro a p s t idle valid h
  have check := checkInstr_eq_none_iff_valid.mpr valid
  obtain ⟨one_le, le⟩ := lengths_of_valid check
  obtain ⟨ta, r, rlen, cw, cwlen⟩ := exec_enc_stores_codeword idle check h
  have r_length : t.r.length = p.length - 1 := r ▸ mod2rem_length one_le le
  have cw_length : t.cw.length = a.length + p.length - 1 := by
    rw [cw, List.length_append, r_length]
    exact (Nat.add_sub_assoc one_le _).symm
  refine ⟨ta, cw_length, cwlen.trans cw_length.symm, ?_, ?_, r_length, rlen.trans r_length.symm, ?_⟩
  · rw [cw, List.take_left]
  · rw [cw, List.drop_left]
  · rw [cw, append_eq_xor_padded a r_length]

end Sys2Proof.Laws
end

section
/-! PROOF. The operation VER as a whole next state (43_crc_verifier.md R130). -/

namespace Sys2Proof.Laws

open Sys2Proof.Machine

/-- R130, R142: VER divides the same view as REM, so once the divisor has two bits both are checked alike. -/
theorem checkInstr_ver_eq_rem (c : Config.Params) (a : BitSeq) {p : BitSeq} (hp : 2 ≤ p.length) :
    checkInstr c (.ver a p) = checkInstr c (.rem a p) := by
  have ver : ¬ p.length < kmin .ver := hp.not_gt
  have rem : ¬ p.length < kmin .rem := (Nat.one_le_of_lt hp).not_gt
  exact (if_neg ver).trans (if_neg rem).symm

/-- R130, R142: VER answers `InvalidInputLength` for a divisor below two bits and for a codeword shorter than the divisor. -/
theorem checkInstr_ver_invalid {c : Config.Params} {a p : BitSeq} (h : p.length < 2 ∨ a.length < p.length) :
    checkInstr c (.ver a p) = some .invalidInputLength := by
  rcases Nat.lt_or_ge p.length 2 with short | long
  · exact check_eq_some_iff.mpr (.inl ⟨short, rfl⟩)
  · rw [checkInstr_ver_eq_rem c a long]
    exact checkInstr_rem_invalid (.inr (h.resolve_left long.not_gt))

/-- Settles O10: the check decides the case, what `exec` does in it is the record update, and a state with `OK` at 1
comes from VER by `onlyVerSetsTheOkFlag`. -/
theorem verAnswersByItsRule : Obligations.VerAnswersByItsRule := by
  intro a p s idle
  refine ⟨fun h => ?_, fun hp ha h => ?_, fun hp ha hN hK => ?_, fun i t h hok => ?_⟩
  · exact exec_of_fault idle (checkInstr_ver_invalid h)
  · have check := checkInstr_rem_capacity (Nat.one_le_of_lt hp) ha h
    exact exec_of_fault idle ((checkInstr_ver_eq_rem _ a hp).trans check)
  · have check := checkInstr_rem_valid (Nat.one_le_of_lt hp) ha hN hK
    exact exec_of_valid idle ((checkInstr_ver_eq_rem _ a hp).trans check)
  · obtain ⟨-, a', p', rfl, -⟩ := onlyVerSetsTheOkFlag i s t idle h hok
    rfl

end Sys2Proof.Laws
end

section
/-! PROOF. The step rules of the reference machine as next states (44_sequencer.md R143 to R146), and the phase graph they
make up (R147, R150). -/

namespace Sys2Proof.Laws

open Sys2Proof.Machine

/-- R143: in `IDLE` the bit-serial machine SUBMITs a presented request. -/
theorem step_of_submit {s : State} {i : Instr} (idle : s.phase = .idle) (bitSerial : s.params.stepping = .bitSerial)
    (presents : Safety.Presents s i) : step s = .next (submit i s.tick) := by
  rw [step_of_presents idle presents, takeRequest_of_bitSerial (s := s.tick) bitSerial]

/-- R144: in `RUN` the block ADVANCEs while dividend bits remain. -/
theorem step_of_advance {s : State} (rst : s.drive.rst = false) (run : s.phase = .run) (ready : windowReady s = true)
    (lt : s.pos < s.viewLen) : step s = .next (advance s.tick) := by
  rw [step_of_run rst run, blockStep_of_advance (s := s.tick) ready lt]

/-- R145: in `RUN` the block FINISHes when no dividend bit remains. -/
theorem step_of_finish {s : State} (rst : s.drive.rst = false) (run : s.phase = .run) (ready : windowReady s = true)
    (eq : s.pos = s.viewLen) : step s = .next (finish s.tick) := by
  rw [step_of_run rst run, blockStep_of_finish (s := s.tick) ready eq]

/-- Settles O20: the two cases of SUBMIT are those of the check, and outside `IDLE` no step writes an operand. -/
theorem submitLatchesTheRequestAndLoadsTheWindow : Obligations.SubmitLatchesTheRequestAndLoadsTheWindow := by
  intro s i bitSerial presents
  refine ⟨fun idle => ?_, fun busy t h => ?_⟩
  · rw [step_of_submit idle bitSerial presents]
    refine ⟨fun e check => ?_, fun check => ?_⟩
    · rw [submit_of_fault (s := s.tick) check]
      rfl
    · rw [submit_of_valid (s := s.tick) check]
      rfl
  · obtain ⟨rst, -⟩ := presents
    obtain ⟨a, alen, p, plen, op, -⟩ := operandsAreNeverModifiedAfterSubmit s t h rst (.inl busy)
    exact ⟨op, a, alen, p, plen⟩

/-- Settles O21: the step is ADVANCE. -/
theorem advanceTakesInOneDividendBit : Obligations.AdvanceTakesInOneDividendBit :=
  fun _ run rst ready lt => step_of_advance rst run ready lt

/-- Settles O22: the step is FINISH, which stores by the operation whose code is in `OP`. -/
theorem finishWritesTheResponseOfTheOperation : Obligations.FinishWritesTheResponseOfTheOperation := by
  intro s run rst ready eq
  rw [step_of_finish rst run ready eq]
  cases s
  refine ⟨?_, ?_, ?_⟩
  · rintro (rfl | rfl)
    · rfl
    · rfl
  · rintro rfl
    rfl
  · rintro rfl
    rfl

/-- Settles O23: with `rsp_ready` the step is COLLECT, without it a wait. -/
theorem collectDeliversTheResponse : Obligations.CollectDeliversTheResponse :=
  fun _ done rst => ⟨step_of_collect done rst, step_of_hold done rst⟩

/-- R143, R226: where a taken request leaves the phase. -/
theorem takeRequest_phase {i : Instr} {s t : State} (idle : s.phase = .idle) (h : takeRequest i s = .next t) :
    t.phase = if s.params.stepping = .bitSerial ∧ checkInstr s.params i = none then .run else .done := by
  cases check : checkInstr s.params i with
  | some e =>
    rw [takeRequest_of_fault idle check] at h
    cases h
    simp
  | none =>
    cases stepping : s.params.stepping with
    | bitSerial =>
      rw [takeRequest_of_bitSerial stepping, submit_of_valid check] at h
      cases h
      simp
    | combinational =>
      rw [takeRequest_of_combinational stepping, exec_of_valid idle check] at h
      cases h
      simp

/-- R148: a block step that does not stop is ADVANCE or FINISH, by `POS`. -/
theorem blockStep_next {s t : State} (h : blockStep s = .next t) :
    s.pos < s.viewLen ∧ t = advance s ∨ s.pos = s.viewLen ∧ t = finish s := by
  obtain ⟨-, lt, hb⟩ | ⟨-, eq, hb⟩ | ⟨-, -, hb⟩ | ⟨-, hb⟩ := blockStep_cases s <;> rw [hb] at h <;> cases h
  · exact .inl ⟨lt, rfl⟩
  · exact .inr ⟨eq, rfl⟩

/-- Settles O26: drive and phase select the rule (R147), and the rule sets the next phase. -/
theorem phasesFollowTheGraph : Obligations.PhasesFollowTheGraph := by
  intro s t h
  refine ⟨fun rst => ?_, fun rst idle quiet => ?_, fun rst idle valid => ?_, fun rst run lt => ?_, fun rst run le => ?_,
    fun rst done => ?_⟩
  · rw [step_of_reset rst] at h
    cases h
    rfl
  · rw [step_of_no_request idle rst quiet] at h
    cases h
    exact idle
  · rw [step_of_request idle rst valid] at h
    exact takeRequest_phase (s := s.tick) idle h
  · rw [step_of_run rst run] at h
    obtain ⟨-, rfl⟩ | ⟨eq, -⟩ := blockStep_next h
    · exact ⟨run, rfl⟩
    · exact absurd eq lt.ne
  · rw [step_of_run rst run] at h
    obtain ⟨lt, -⟩ | ⟨-, rfl⟩ := blockStep_next h
    · exact absurd le lt.not_ge
    · obtain ⟨-, -, -, -, -, -, pos, -, -, -, phase⟩ := finish_frame s.tick
      exact ⟨phase, pos⟩
  · cases ready : s.drive.rspReady with
    | true =>
      rw [step_of_collect done rst ready] at h
      cases h
      rfl
    | false =>
      rw [step_of_hold done rst ready] at h
      cases h
      exact done

/-- Settles O28: every step hands over what COLLECT does, if it happens, and nothing else. -/
theorem onlyCollectDeliversAndParametersStay : Obligations.OnlyCollectDeliversAndParametersStay := by
  intro s t h
  obtain ⟨params, script, delivered⟩ := step_host_frame h
  refine ⟨params, script, ?_⟩
  rw [delivered, handedOver]
  split
  · rfl
  · exact List.append_nil _

end Sys2Proof.Laws
end

section
/-! PROOF. The whole transaction: the response `exec` leaves and what it leaves unchanged (44_sequencer.md R141, R145). -/

namespace Sys2Proof.Laws

open Sys2Proof.Machine Sys2Proof.Safety

/-- Settles O11: `exec` ends in `DONE` with the invariant, and the invariant holds the response of the latched request. -/
theorem everyRequestHasItsOneResponse : Obligations.EveryRequestHasItsOneResponse := by
  intro i s idle
  obtain ⟨t, h, done, latched, inv⟩ := exec_answers i idle
  obtain ⟨params, -⟩ := exec_host_frame idle h
  have response := doneInv_response inv
  obtain ⟨-, -, register⟩ := inv
  rw [params, latched] at response register
  exact ⟨t, h, done, latched, response, register⟩

/-- R145: storing a result reports no fault, under every operation. -/
theorem storeResult_err (r : BitSeq) (s : State) : (storeResult r s).err = noFault := by
  unfold storeResult
  split <;> rfl

/-- log 5: storing a result draws no free value. -/
theorem storeResult_free (r : BitSeq) (s : State) : (storeResult r s).free = s.free := by
  unfold storeResult
  split <;> rfl

/-- R145: only ENC writes `CW`. -/
theorem storeResult_cw_of_ne_enc (r : BitSeq) {s : State} (h : opOfCode s.op ≠ .enc) :
    (storeResult r s).cw = s.cw := by
  unfold storeResult
  split
  case h_3 enc => exact absurd enc h
  all_goals rfl

/-- Settles O12: outside `IDLE` nothing happens; in `IDLE` a fault writes none of the four registers, and a result writes
`CW` and `R` by its operation. -/
theorem execFrameOfEveryOperation : Obligations.ExecFrameOfEveryOperation := by
  intro i s t h
  by_cases idle : s.phase = .idle
  · obtain ⟨params, script, delivered⟩ := exec_host_frame idle h
    refine ⟨params, script, delivered, ?_⟩
    obtain ⟨e, -, he⟩ | ⟨-, he⟩ := exec_cases i idle <;> rw [he] at h <;> cases h
    · exact ⟨rfl, fun _ => rfl, fun _ => rfl, fun _ _ => ⟨rfl, rfl, rfl, rfl⟩⟩
    · refine ⟨storeResult_free _ _, fun notEnc => storeResult_cw_of_ne_enc _ ?_, ?_, ?_⟩
      · rw [divide_op, latch_op, opOfCode_codeOfOp]
        intro enc
        cases i <;> cases enc
        exact notEnc _ _ rfl
      · rintro ⟨a, p, rfl⟩
        rfl
      · exact fun err => absurd (storeResult_err _ _) err
  · rw [exec_busy idle] at h
    cases h
    exact ⟨rfl, rfl, rfl, rfl, fun _ => rfl, fun _ => rfl, fun _ idle' => absurd idle' idle⟩

end Sys2Proof.Laws
end

section
/-! PROOF. What the host sees in a state with the invariant (10_state.md R30, R34; 44_sequencer.md R151), and that such a
state always steps (R150). -/

namespace Sys2Proof.Laws

open Sys2Proof.Machine Sys2Proof.Safety

/-- R30: a port has a pin for every index below a length that fits its capacity. -/
theorem hasPin_of_lt {cap : Config.Capacity} {i n : Nat} (fits : cap.exceededBy n = false) (h : i < n) :
    cap.hasPin i = true := by
  rw [Config.Capacity.hasPin, exceededBy_of_le h fits, Bool.not_false]

/-- R141, R160: a remainder in a response is one bit shorter than the divisor. -/
theorem flatten_result_rlen_le {c : Config.Params} {i : Instr} (check : checkInstr c i = none) :
    (flatten (result i)).rlen ≤ i.p.length - 1 := by
  obtain ⟨one_le, le⟩ := lengths_of_valid check
  have length := (mod2rem_length one_le le).le
  cases i with
  | rem a p => exact length
  | gen a p => exact length
  | enc a p => exact length
  | ver a p => exact Nat.zero_le _

/-- R141, R163: a codeword in a response is as long as the dividend view. -/
theorem flatten_result_cwlen_le {c : Config.Params} {i : Instr} (check : checkInstr c i = none) :
    (flatten (result i)).cwlen ≤ viewLen i.op i.a.length i.p.length := by
  obtain ⟨one_le, le⟩ := lengths_of_valid check
  have length := mod2rem_length one_le le
  cases i with
  | rem a p => exact Nat.zero_le _
  | gen a p => exact Nat.zero_le _
  | enc a p =>
    have total : (a ++ mod2rem (view .enc a p) p).length = a.length + (p.length - 1) :=
      List.length_append.trans (congrArg (a.length + ·) length)
    exact total.trans_le (Nat.add_sub_assoc one_le _).ge
  | ver a p => exact Nat.zero_le _

/-- R30: `rsp_r` has a pin for every live bit of a response. -/
theorem rspR_hasPin {c : Config.Params} {i : Instr} {j : Nat} (h : j < (flatten (transact c i)).rlen) :
    c.maxK.hasPin (j + 1) = true := by
  cases check : checkInstr c i with
  | some e =>
    rw [transact_of_fault check] at h
    cases h
  | none =>
    rw [transact_of_valid check] at h
    have lt := h.trans_le (flatten_result_rlen_le check)
    obtain ⟨-, -, fits⟩ := check_eq_none_iff.mp check
    exact hasPin_of_lt (exceedsCapacity_eq_false.mp fits).2 (Nat.add_lt_of_lt_sub lt)

/-- R30: `rsp_cw` has a pin for every live bit of a response. -/
theorem rspCw_hasPin {c : Config.Params} {i : Instr} {j : Nat} (h : j < (flatten (transact c i)).cwlen) :
    c.maxN.hasPin j = true := by
  cases check : checkInstr c i with
  | some e =>
    rw [transact_of_fault check] at h
    cases h
  | none =>
    rw [transact_of_valid check] at h
    obtain ⟨-, -, fits⟩ := check_eq_none_iff.mp check
    exact hasPin_of_lt (exceedsCapacity_eq_false.mp fits).1 (h.trans_le (flatten_result_cwlen_le check))

theorem getD_take_of_lt {s : BitSeq} {i n : Nat} (h : i < n) : (s.take n).getD i false = s.getD i false := by
  rw [List.getD_eq_getElem?_getD, List.getElem?_take_of_lt h, List.getD_eq_getElem?_getD]

/-- R30, R34: a pin of `rsp_r` below `rsp_rlen` shows the bit of the response register. -/
theorem rspRPin_of_lt {s : State} {i : Nat} (valid : s.rspValid = true) (pin : s.params.maxK.hasPin (i + 1) = true)
    (h : i < s.rspRegister.rlen) : s.rspRPin i = some (s.rspRegister.r.getD i false) := by
  have lt : i < s.rlen := h
  rw [State.rspRPin, if_pos pin, if_pos ⟨valid, lt⟩, State.rspRegister, getD_take_of_lt lt]

/-- R30, R34: a pin of `rsp_cw` below `rsp_cwlen` shows the bit of the response register. -/
theorem rspCwPin_of_lt {s : State} {i : Nat} (valid : s.rspValid = true) (pin : s.params.maxN.hasPin i = true)
    (h : i < s.rspRegister.cwlen) : s.rspCwPin i = some (s.rspRegister.cw.getD i false) := by
  have lt : i < s.cwlen := h
  rw [State.rspCwPin, if_pos pin, if_pos ⟨valid, lt⟩, State.rspRegister, getD_take_of_lt lt]

theorem reqReady_eq_false {s : State} (h : s.phase ≠ .idle) : s.reqReady = false := decide_eq_false h

theorem rspValid_eq_false {s : State} (h : s.phase ≠ .done) : s.rspValid = false := decide_eq_false h

/-- Settles O31: the handshakes follow the phase, and in `DONE` the register is the flattened response, which fits the
ports. -/
theorem portsShowThePhase : Obligations.PortsShowThePhase := by
  intro s inv
  refine ⟨fun idle => ⟨decide_eq_true idle, ?_⟩, fun run => ⟨?_, ?_⟩, fun done => ?_⟩
  · exact rspValid_eq_false (by simp [idle])
  · exact reqReady_eq_false (by simp [run])
  · exact rspValid_eq_false (by simp [run])
  · have valid : s.rspValid = true := decide_eq_true done
    obtain ⟨-, -, doneInv⟩ := inv
    obtain ⟨-, -, register⟩ := doneInv done
    rw [rspPorts_of_valid valid]
    refine ⟨reqReady_eq_false (by simp [done]), valid, register, fun i lt => ?_, fun i lt => ?_⟩
    · exact rspRPin_of_lt valid (rspR_hasPin (register ▸ lt)) lt
    · exact rspCwPin_of_lt valid (rspCw_hasPin (register ▸ lt)) lt

/-- A block with the invariant is at its own point of a transaction. -/
theorem alike_self {s : State} (h : RegistersInv s) : Alike s s where
  params := rfl
  script := rfl
  phase := rfl
  left := h
  right := h
  run := fun _ => ⟨rfl, rfl⟩
  done := fun _ => rfl

/-- Settles O36: alike blocks step together, and a block with the invariant is alike to itself. -/
theorem invariantStatesNeverStop : Obligations.InvariantStatesNeverStop := by
  intro s inv
  obtain ⟨-, registers⟩ := (inv_iff s).mp inv
  obtain ⟨t, -, h, -⟩ := (alike_self registers).after_step
  exact ⟨t, h⟩

end Sys2Proof.Laws
end

section
/-! PROOF. Runs of the step machine: the induction on `POS` (44_sequencer.md R148), the counted steps to `DONE` (R150, R225),
and that SUBMIT to COLLECT is the transaction function (R141, R153). -/

namespace Sys2Proof.Laws

open Sys2Proof.Machine Sys2Proof.Safety

/-- R148: the block in `RUN` once `n` dividend bits have been taken in. -/
def advancedTo (n : Nat) (s : State) : State :=
  { s with w := windowAfter (view (opOfCode s.op) s.a s.p) s.p (n - s.plen), pos := n }

/-- R153: the premise that the host drives no RESET, in two parts. -/
theorem noReset_add {s : State} {m n : Nat} (h : NoReset s (m + n)) : NoReset s m ∧ NoReset (later m s) n := by
  have both : ∀ d ∈ s.script.take m ++ (s.script.drop m).take n, d.rst = false := List.take_add ▸ h
  exact List.forall_mem_append.mp both

/-- R148: in a state with the invariant the window and the position are those of `POS` bits taken in. -/
theorem advancedTo_pos {s : State} (h : RunInv s) : advancedTo s.pos s = s := by
  obtain ⟨-, -, -, -, -, w⟩ := h
  rw [advancedTo, ← w]

theorem advancedTo_runInv {s : State} {n : Nat} (h : RunInv s) (ge : s.pos ≤ n) (le : n ≤ s.viewLen) :
    RunInv (advancedTo n s) := by
  obtain ⟨a, p, check, plen, -, -⟩ := h
  exact ⟨a, p, check, plen.trans ge, le, rfl⟩

/-- R148: `j` ADVANCEs, whatever else the host drives. -/
theorem run_advances {j : Nat} : ∀ {s : State}, RunInv s → s.phase = .run → s.pos + j ≤ s.viewLen → NoReset s j →
    Sys2Proof.core.run j s = .next (later j (advancedTo (s.pos + j) s)) := by
  induction j with
  | zero =>
    intro s inv _ _ _
    rw [run_zero, later_zero, Nat.add_zero, advancedTo_pos inv]
  | succ j ih =>
    intro s inv run le noReset
    obtain ⟨rst, noReset'⟩ := noReset_succ noReset
    obtain ⟨ready, -⟩ := runInv_ready inv
    have lt : s.pos < s.viewLen := by omega
    have inv' : RunInv (advance s.tick) := advance_runInv (s := s.tick) inv lt
    have le' : s.pos + 1 + j ≤ s.viewLen := by omega
    have target : advancedTo (s.pos + 1 + j) (advance s.tick) = later 1 (advancedTo (s.pos + 1 + j) s) := by
      rw [later_one]
      rfl
    rw [run_succ j (step_of_advance rst run ready lt), ih inv' run le' noReset', advance_pos, tick_pos, target,
      later_later, Nat.add_right_comm, Nat.add_assoc, Nat.add_comm 1 j]

/-- R148, R150: all ADVANCEs and FINISH. -/
theorem run_to_finish {s : State} (inv : RunInv s) (run : s.phase = .run)
    (noReset : NoReset s (s.viewLen - s.pos + 1)) :
    Sys2Proof.core.run (s.viewLen - s.pos + 1) s =
      .next (later (s.viewLen - s.pos + 1) (finish (advancedTo s.viewLen s))) := by
  obtain ⟨-, le, -⟩ := runInv_ready inv
  have all : s.pos + (s.viewLen - s.pos) = s.viewLen := by omega
  obtain ⟨noReset, last⟩ := noReset_add noReset
  obtain ⟨rst, -⟩ := noReset_succ last
  have advances := run_advances inv run all.le noReset
  rw [all] at advances
  obtain ⟨ready, -⟩ := runInv_ready (advancedTo_runInv inv le le_rfl)
  have last_step : step (later (s.viewLen - s.pos) (advancedTo s.viewLen s)) = .next _ :=
    step_of_finish rst run ready rfl
  rw [run_add _ 1 advances, run_succ 0 last_step, run_zero, ← later_one, later_later, finish_later]

/-- Settles O37: the run ends in FINISH, which leaves the response to the latched request and keeps the host's side. -/
theorem runReachesDoneInCountedSteps : Obligations.RunReachesDoneInCountedSteps := by
  intro s inv run noReset
  obtain ⟨-, runInv, -⟩ := inv
  have h := run_to_finish (runInv run) run noReset
  obtain ⟨-, le, -⟩ := runInv_ready (runInv run)
  have response := doneInv_response (finish_doneInv (advancedTo_runInv (runInv run) le le_rfl) rfl)
  obtain ⟨params, -, -, -, -, -, -, -, delivered, -, done⟩ := finish_frame (advancedTo s.viewLen s)
  rw [params, finish_latched] at response
  exact ⟨_, h, done, response, delivered⟩

/-- R143: SUBMIT loads the length of the request's dividend view. -/
theorem submit_viewLen {s : State} {i : Instr} (check : checkInstr s.params i = none) :
    (submit i s).viewLen = (view i.op i.a i.p).length := by
  obtain ⟨-, inv, latched, -⟩ := submit_runInv check
  obtain ⟨one_le, -⟩ := lengths_of_valid check
  rw [runInv_viewLen inv, latched, view_length one_le]

/-- R148: the window once `n` bits of the latched request's dividend view have been taken in. -/
theorem advancedTo_w {s : State} {i : Instr} (n : Nat) (inv : RunInv s) (latched : s.latched = i) :
    (advancedTo n s).w = windowAfter (view i.op i.a i.p) i.p (n - i.p.length) := by
  obtain ⟨-, plen, -⟩ := inv
  rw [← latched, latched_op, latched_a, latched_p, plen, advancedTo]

/-- SUBMIT leaves what the host drives. -/
theorem submit_noReset {s : State} {n : Nat} (i : Instr) (h : NoReset s n) : NoReset (submit i s) n := by
  obtain ⟨-, script, -⟩ := submit_frame i s
  rwa [NoReset, script]

/-- Settles O38: SUBMIT sets the invariant up at round 0, and each ADVANCE is one round. -/
theorem windowFollowsTheDivisionRoundByRound : Obligations.WindowFollowsTheDivisionRoundByRound := by
  intro s i j idle bitSerial presents check le noReset
  obtain ⟨run, inv, latched, pos⟩ := submit_runInv (s := s.tick) check
  rw [Nat.add_comm] at noReset ⊢
  obtain ⟨-, noReset⟩ := noReset_succ noReset
  have bound : (submit i s.tick).pos + j ≤ (submit i s.tick).viewLen := by
    obtain ⟨-, le_view⟩ := lengths_of_valid check
    rw [pos, submit_viewLen (s := s.tick) check]
    omega
  have advances := run_advances inv run bound (submit_noReset i noReset)
  rw [pos] at advances
  refine ⟨_, (run_succ j (step_of_submit idle bitSerial presents)).trans advances, run, latched, rfl, ?_⟩
  rw [later_w, advancedTo_w _ inv latched, Nat.add_sub_cancel_left]

/-- R141, R148: SUBMIT of a request that passes the check, all ADVANCEs and FINISH make up `exec`. -/
theorem exec_eq_finish_of_submit {s : State} {i : Instr} (idle : s.phase = .idle)
    (check : checkInstr s.params i = none) :
    exec i s = .next (finish (advancedTo (submit i s).viewLen (submit i s))) := by
  obtain ⟨-, inv, -⟩ := submit_runInv check
  obtain ⟨-, le, -⟩ := runInv_ready inv
  rw [exec_of_valid idle check, finish_of_runInv (advancedTo_runInv inv le le_rfl) rfl, submit_of_valid check]
  cases i <;> rfl

theorem blockSteps_of_fault {c : Config.Params} {i : Instr} {e : ReqFault} (h : checkInstr c i = some e) :
    blockSteps c i = 0 := by
  simp only [blockSteps, h]

theorem blockSteps_of_valid {c : Config.Params} {i : Instr} (h : checkInstr c i = none) :
    blockSteps c i = (view i.op i.a i.p).length - i.p.length + 1 := by
  simp only [blockSteps, h]

/-- R225: how many steps the bit-serial machine makes. -/
theorem stepsToDone_of_bitSerial {c : Config.Params} (h : c.stepping = .bitSerial) (i : Instr) :
    stepsToDone c i = blockSteps c i + 1 := by
  simp only [stepsToDone, h, Nat.add_comm]

/-- R226: the combinational machine makes one step. -/
theorem stepsToDone_of_combinational {c : Config.Params} (h : c.stepping = .combinational) (i : Instr) :
    stepsToDone c i = 1 := by
  simp only [stepsToDone, h]

theorem stepsToDone_of_fault {c : Config.Params} {i : Instr} {e : ReqFault} (h : checkInstr c i = some e) :
    stepsToDone c i = 1 := by
  cases stepping : c.stepping with
  | bitSerial => rw [stepsToDone_of_bitSerial stepping, blockSteps_of_fault h]
  | combinational => exact stepsToDone_of_combinational stepping i

/-- R148: the block steps after SUBMIT of a request that passes the check end where `exec` does. -/
theorem run_of_submit {s t : State} {i : Instr} (idle : s.phase = .idle) (check : checkInstr s.params i = none)
    (noReset : NoReset s (blockSteps s.params i)) (h : exec i s = .next t) :
    Sys2Proof.core.run (blockSteps s.params i) (submit i s) = .next (later (blockSteps s.params i) t) := by
  obtain ⟨run, inv, -, pos⟩ := submit_runInv check
  have count : blockSteps s.params i = (submit i s).viewLen - (submit i s).pos + 1 := by
    rw [blockSteps_of_valid check, submit_viewLen check, pos]
  have finished := run_to_finish inv run (count ▸ submit_noReset i noReset)
  cases (exec_eq_finish_of_submit idle check).symm.trans h
  rw [count, finished]

/-- A step that is the whole transaction is a run to the state `exec` gives. -/
theorem run_one_of_exec {s t : State} {i : Instr} (h : step s = exec i s.tick) (ht : exec i s = .next t) :
    Sys2Proof.core.run 1 s = .next (later 1 t) := by
  rw [run_succ 0 (h.trans (later_one s ▸ exec_later 1 ht)), run_zero]

/-- R187: a presented request that fails the check is answered in one step, under both steppings. -/
theorem step_of_fault {s : State} {i : Instr} {e : ReqFault} (idle : s.phase = .idle) (presents : Presents s i)
    (check : checkInstr s.params i = some e) : step s = exec i s.tick := by
  rw [step_of_presents idle presents, takeRequest_of_fault (s := s.tick) idle check,
    exec_of_fault (s := s.tick) idle check]

/-- R226: a presented request is answered in one step by the combinational machine. -/
theorem step_of_transaction {s : State} {i : Instr} (idle : s.phase = .idle)
    (combinational : s.params.stepping = .combinational) (presents : Presents s i) : step s = exec i s.tick := by
  rw [step_of_presents idle presents, takeRequest_of_combinational (s := s.tick) combinational]

/-- R148, R225, R226: from the step that takes the request, the machine runs to the state `exec` gives. -/
theorem run_of_exec {s t : State} {i : Instr} (idle : s.phase = .idle) (presents : Presents s i)
    (noReset : NoReset s (stepsToDone s.params i)) (h : exec i s = .next t) :
    Sys2Proof.core.run (stepsToDone s.params i) s = .next (later (stepsToDone s.params i) t) := by
  cases check : checkInstr s.params i with
  | some e =>
    rw [stepsToDone_of_fault check]
    exact run_one_of_exec (step_of_fault idle presents check) h
  | none =>
    cases stepping : s.params.stepping with
    | combinational =>
      rw [stepsToDone_of_combinational stepping]
      exact run_one_of_exec (step_of_transaction idle stepping presents) h
    | bitSerial =>
      rw [stepsToDone_of_bitSerial stepping] at noReset ⊢
      obtain ⟨-, noReset⟩ := noReset_succ noReset
      have submitted := run_of_submit (s := s.tick) idle check noReset (later_one s ▸ exec_later 1 h)
      rw [later_later, Nat.add_comm 1] at submitted
      exact (run_succ _ (step_of_submit idle stepping presents)).trans submitted

/-- Settles O39: the machine runs to the state `exec` gives, which holds the transaction function. -/
theorem stepMachineReachesTheTransactionResult : Obligations.StepMachineReachesTheTransactionResult := by
  intro s i idle presents noReset
  obtain ⟨t, h, done, -, response, -⟩ := everyRequestHasItsOneResponse i s idle
  exact ⟨t, h, done, response, run_of_exec idle presents noReset h⟩

/-- What the host drives `n` steps later is entry `n` of its script. -/
theorem later_drive {s : State} {n : Nat} {d : Drive} (h : s.script[n]? = some d) : (later n s).drive = d := by
  rw [State.drive, later_script, List.headD_eq_head?_getD, List.head?_drop, h, Option.getD_some]

/-- Settles O40: the run ends where `exec` does, and one COLLECT delivers the response there. -/
theorem collectedResponseIsTheTransactionFunction : Obligations.CollectedResponseIsTheTransactionFunction := by
  intro s i d idle presents noReset hd rst ready
  obtain ⟨t, h, done, response, reaches⟩ := stepMachineReachesTheTransactionResult s i idle presents noReset
  obtain ⟨-, script, delivered⟩ := exec_host_frame idle h
  obtain rfl := later_drive (script ▸ hd)
  refine ⟨_, (run_add _ 1 reaches).trans (run_succ 0 (step_of_collect done rst ready)), rfl, ?_⟩
  change t.delivered ++ [t.response] = _
  rw [delivered, response]

end Sys2Proof.Laws
end

section
/-! PROOF. The division is linear in the dividend, and it passes the tail of a dividend without a leading 1 through
(49_laws.md R160, R165, R166). -/

namespace Sys2Proof.Laws

open Sys2Proof.Machine Sys2Proof.Safety

/-- R145: every operation but VER stores the remainder, with the length R160 gives it. -/
theorem storeResult_remainder_of_ne_ver (r : BitSeq) {s : State} (h : opOfCode s.op ≠ .ver) :
    (storeResult r s).r = r ∧ (storeResult r s).rlen = s.plen - 1 := by
  unfold storeResult
  split
  case h_4 ver => exact absurd ver h
  all_goals exact ⟨rfl, rfl⟩

/-- Settles O44: a request that passes the check meets the precondition of `mod2rem`, and what `exec` stores is the
remainder of its view. -/
theorem remainderHasLengthOneLessThanDivisor : Obligations.RemainderHasLengthOneLessThanDivisor := by
  refine ⟨fun d v => mod2rem_length, fun i s idle valid notVer => ?_⟩
  have check := checkInstr_eq_none_iff_valid.mpr valid
  obtain ⟨one_le, le⟩ := lengths_of_valid check
  have length := mod2rem_length one_le le
  obtain ⟨r, rlen⟩ := storeResult_remainder_of_ne_ver (mod2rem (view i.op i.a i.p) i.p)
    (s := (s.latch i.op i.a i.p).divide (view i.op i.a i.p) i.p) (by rwa [divide_op, latch_op, opOfCode_codeOfOp])
  refine ⟨_, exec_of_valid idle check, storeResult_err _ _, ?_, ?_⟩
  · rw [toDone_r, r, length]
  · rw [toDone_rlen, toDone_r, rlen, r, length, divide_plen, latch_plen]

/-- R166: while the tested bits are 0, no window has a leading 1, so none is changed. -/
theorem mod2rem_of_zero_lead {d v : BitSeq} (hv : 1 ≤ v.length) (h : v.length ≤ d.length)
    (zero : ∀ i, i ≤ d.length - v.length → d.getD i false = false) :
    mod2rem d v = d.drop (d.length - v.length + 1) :=
  mod2rem_of_condxor_fixed hv h fun i hi => condxor_of_not_lead v ((leadOf_take_drop hv d i).trans (zero i hi))

/-- Settles O50: the loop tests the bits 0 to `n - k`. -/
theorem zeroLeadGivesTheTail : Obligations.ZeroLeadGivesTheTail :=
  fun _ _ => mod2rem_of_zero_lead

/-- R166, special case: zeros before a remainder leave it as it is. -/
theorem mod2rem_zeros_append {m : Nat} {r v : BitSeq} (hm : 1 ≤ m) (hv : 1 ≤ v.length)
    (hr : r.length = v.length - 1) : mod2rem (BitSeq.zeros m ++ r) v = r := by
  have length : (BitSeq.zeros m ++ r).length = m + (v.length - 1) := by rw [List.length_append, zeros_length, hr]
  have tested : m + (v.length - 1) - v.length + 1 = m := by omega
  have tail := mod2rem_of_zero_lead (d := BitSeq.zeros m ++ r) hv (by omega) fun i hi => by
    rw [List.getD_append _ _ _ _ (by rw [zeros_length]; omega), zeros_getD]
  rw [tail, length, tested, List.drop_left' (zeros_length m)]

/-! ### Linearity -/

theorem bitXor_xor_xor_comm (s t u v : BitSeq) :
    BitSeq.xor (BitSeq.xor s t) (BitSeq.xor u v) = BitSeq.xor (BitSeq.xor s u) (BitSeq.xor t v) := by
  rw [bitXor_assoc, ← bitXor_assoc t, bitXor_comm t u, bitXor_assoc u, ← bitXor_assoc]

/-- R165: `b * V`, the pattern a conditional XOR adds when it tests the bit `b`, and the copy of `V`
a quotient bit adds. -/
def scale (b : Bool) (v : BitSeq) : BitSeq := if b then v else BitSeq.zeros v.length

@[simp] theorem scale_length (b : Bool) (v : BitSeq) : (scale b v).length = v.length := by
  cases b
  · exact zeros_length _
  · rfl

theorem scale_xor (b c : Bool) (v : BitSeq) : scale (Bool.xor b c) v = BitSeq.xor (scale b v) (scale c v) := by
  cases b <;> cases c
  · exact (zeros_length v.length ▸ xor_zeros _).symm
  · exact (zeros_xor v).symm
  · exact (xor_zeros v).symm
  · exact (bitXor_self v).symm

/-- R165: `condxor(W, V) = xor(W, W[0] * V)`. -/
theorem condxor_eq_xor_scale {w v : BitSeq} (h : w.length = v.length) :
    condxor w v = BitSeq.xor w (scale (leadOf w) v) := by
  rw [condxor, scale, h]
  split <;> rfl

theorem leadOf_xor {w w' : BitSeq} (h : w.length = w'.length) :
    leadOf (BitSeq.xor w w') = Bool.xor (leadOf w) (leadOf w') := by
  simp only [leadOf_eq_getD, xor_getD h]

theorem condxor_xor {w w' v : BitSeq} (hw : w.length = v.length) (hw' : w'.length = v.length) :
    condxor (BitSeq.xor w w') v = BitSeq.xor (condxor w v) (condxor w' v) := by
  have length : (BitSeq.xor w w').length = v.length := by rw [xor_length, hw, hw', min_self]
  rw [condxor_eq_xor_scale length, condxor_eq_xor_scale hw, condxor_eq_xor_scale hw', leadOf_xor (hw.trans hw'.symm),
    scale_xor, bitXor_xor_xor_comm]

theorem shiftin_xor {w w' : BitSeq} (b b' : Bool) (h : w.length = w'.length) :
    shiftin (BitSeq.xor w w') (Bool.xor b b') = BitSeq.xor (shiftin w b) (shiftin w' b') := by
  have tails : (w.drop 1).length = (w'.drop 1).length := by rw [List.length_drop, List.length_drop, h]
  rw [shiftin, shiftin, shiftin, xor_append _ _ tails, xor_drop, xor_cons, xor_nil_left]

/-- R92: a round keeps the window as long as the divisor. -/
theorem shiftin_condxor_length {w v : BitSeq} (b : Bool) (hv : 1 ≤ v.length) (hw : w.length = v.length) :
    (shiftin (condxor w v) b).length = v.length := by
  rw [shiftin_length b (condxor_length hw ▸ hv), condxor_length hw]

theorem slide_xor {v : BitSeq} (hv : 1 ≤ v.length) (rest : BitSeq) :
    ∀ {w w' rest' : BitSeq}, w.length = v.length → w'.length = v.length → rest.length = rest'.length →
      slide v (BitSeq.xor w w') (BitSeq.xor rest rest') = BitSeq.xor (slide v w rest) (slide v w' rest') := by
  induction rest with
  | nil =>
    intro w w' rest' _ _ h
    rw [List.eq_nil_of_length_eq_zero h.symm]
    rfl
  | cons b rest ih =>
    intro w w' rest' hw hw' h
    obtain ⟨b', rest', rfl⟩ := List.exists_cons_of_length_eq_add_one h.symm
    rw [xor_cons, slide, slide, slide, condxor_xor hw hw',
      shiftin_xor b b' ((condxor_length hw).trans (condxor_length hw').symm),
      ih (shiftin_condxor_length b hv hw) (shiftin_condxor_length b' hv hw') (Nat.succ.inj h)]

/-- R165: each part of the division is linear, so the division is. -/
theorem mod2rem_xor {d d' v : BitSeq} (hv : 1 ≤ v.length) (h : v.length ≤ d.length) (eq : d.length = d'.length) :
    mod2rem (BitSeq.xor d d') v = BitSeq.xor (mod2rem d v) (mod2rem d' v) := by
  have take {e : BitSeq} (he : v.length ≤ e.length) : (e.take v.length).length = v.length :=
    List.length_take_of_le he
  have drops : (d.drop v.length).length = (d'.drop v.length).length := by rw [List.length_drop, List.length_drop, eq]
  have slid {e : BitSeq} (he : v.length ≤ e.length) := slide_length hv (e.drop v.length) (take he)
  simp only [mod2rem, finalWindow]
  rw [xor_take, xor_drop, slide_xor hv _ (take h) (take (eq ▸ h)) drops, condxor_xor (slid h) (slid (eq ▸ h)),
    xor_drop]

/-! ### Codewords and errors -/

theorem padded_length (a : BitSeq) {p : BitSeq} (hp : 1 ≤ p.length) :
    (padded a p).length = a.length + p.length - 1 := view_length (o := .gen) hp

/-- R110, R142: a padded message that is not empty is as long as the divisor. -/
theorem length_le_padded_length {a p : BitSeq} (ha : 1 ≤ a.length) (hp : 1 ≤ p.length) :
    p.length ≤ (padded a p).length := by
  rw [padded_length a hp]
  omega

/-- R163: a codeword has the length of the padded message. -/
theorem codeword_length {a p : BitSeq} (ha : 1 ≤ a.length) (hp : 1 ≤ p.length) :
    (a ++ mod2rem (padded a p) p).length = a.length + p.length - 1 := by
  rw [List.length_append, mod2rem_length hp (length_le_padded_length ha hp), Nat.add_sub_assoc hp]

/-- R169: a codeword is the padded message XOR the remainder in the padding's place, and both have that remainder. -/
theorem mod2rem_codeword {a p : BitSeq} (ha : 1 ≤ a.length) (hp : 1 ≤ p.length) :
    mod2rem (a ++ mod2rem (padded a p) p) p = BitSeq.zeros (p.length - 1) := by
  have long := length_le_padded_length ha hp
  have r_length := mod2rem_length hp long
  have same : (padded a p).length = (BitSeq.zeros a.length ++ mod2rem (padded a p) p).length := by
    rw [List.length_append, zeros_length, r_length, padded_length a hp, Nat.add_sub_assoc hp]
  rw [append_eq_xor_padded a r_length, ← padded, mod2rem_xor hp long same, mod2rem_zeros_append ha hp r_length,
    bitXor_self, r_length]

/-- R165, consequence: the zero remainder of the codeword leaves the remainder of the error. -/
theorem mod2rem_codeword_xor {a p e : BitSeq} (ha : 1 ≤ a.length) (hp : 1 ≤ p.length)
    (he : e.length = a.length + p.length - 1) :
    mod2rem (BitSeq.xor (a ++ mod2rem (padded a p) p) e) p = mod2rem e p := by
  have long : p.length ≤ a.length + p.length - 1 := by omega
  have e_rem_length : (mod2rem e p).length = p.length - 1 := mod2rem_length hp (he ▸ long)
  rw [mod2rem_xor hp ((codeword_length ha hp).symm ▸ long) ((codeword_length ha hp).trans he.symm),
    mod2rem_codeword ha hp, ← e_rem_length, zeros_xor]

/-- Settles O51: linearity, and the codeword's zero remainder. -/
theorem divisionIsLinearInTheDividend : Obligations.DivisionIsLinearInTheDividend :=
  ⟨fun _ _ _ => mod2rem_xor, fun _ _ _ ha hp => mod2rem_codeword_xor ha (Nat.one_le_of_lt hp)⟩

end Sys2Proof.Laws
end

section
/-! PROOF. The round trip of ENC and VER on the machine, and what VER reports of a corrupted codeword (49_laws.md R161, R164,
R168). -/

namespace Sys2Proof.Laws

open Sys2Proof.Machine Sys2Proof.Safety

/-- R181: a valid ENC has a message, and a polynomial of two bits. -/
theorem lengths_of_valid_enc {c : Config.Params} {a p : BitSeq} (valid : Valid c (.enc a p)) :
    1 ≤ a.length ∧ 2 ≤ p.length := by
  obtain ⟨lengths, -, -⟩ := valid
  rw [InvalidLength, not_or] at lengths
  omega

/-- R120, R130, R142: VER of a sequence of the codeword's length is checked as the ENC is. -/
theorem checkInstr_ver_eq_enc (c : Config.Params) {a p x : BitSeq} (h : x.length = a.length + p.length - 1) :
    checkInstr c (.ver x p) = checkInstr c (.enc a p) := by
  simp only [checkInstr, Instr.op, Instr.a, Instr.p, h]
  rfl

/-- R120: a valid ENC answers the codeword of R121. -/
theorem exec_enc_of_valid {a p : BitSeq} {s : State} (idle : s.phase = .idle) (valid : Valid s.params (.enc a p)) :
    ∃ t, exec (.enc a p) s = .next t ∧ t.cw = a ++ mod2rem (padded a p) p :=
  ⟨_, exec_of_valid idle (checkInstr_eq_none_iff_valid.mpr valid), rfl⟩

/-- R130: VER of a sequence of the codeword's length answers whether its remainder is all zero. -/
theorem exec_ver_of_valid_enc {a p x : BitSeq} {u : State} (idle : u.phase = .idle)
    (valid : Valid u.params (.enc a p)) (h : x.length = a.length + p.length - 1) :
    ∃ t, exec (.ver x p) u = .next t ∧ t.err = noFault ∧ t.ok = (mod2rem x p).allZero :=
  ⟨_, exec_of_valid idle ((checkInstr_ver_eq_enc _ h).trans (checkInstr_eq_none_iff_valid.mpr valid)), rfl, rfl⟩

/-- Settles O53: VER divides the codeword, and its remainder is all zero. -/
theorem encodedCodewordVerifies : Obligations.EncodedCodewordVerifies := by
  intro a p s u idle idle' params valid
  obtain ⟨ha, hp⟩ := lengths_of_valid_enc valid
  have zero := mod2rem_codeword ha (Nat.one_le_of_lt hp)
  obtain ⟨t, enc, cw⟩ := exec_enc_of_valid idle valid
  rw [← cw] at zero
  obtain ⟨t', ver, err, ok⟩ := exec_ver_of_valid_enc (x := t.cw) idle' (params.symm ▸ valid)
    (cw ▸ codeword_length ha (Nat.one_le_of_lt hp))
  refine ⟨t, t', enc, zero, ver, err, ?_⟩
  rw [ok, zero, allZero_iff, zeros_length]

/-- Settles O54: VER divides the corrupted codeword, and its remainder is that of the error. -/
theorem verdictDependsOnTheErrorPatternAlone : Obligations.VerdictDependsOnTheErrorPatternAlone := by
  intro a p e s u idle idle' params valid he
  obtain ⟨ha, hp⟩ := lengths_of_valid_enc valid
  obtain ⟨t, enc, cw⟩ := exec_enc_of_valid idle valid
  have length : (BitSeq.xor t.cw e).length = a.length + p.length - 1 := by
    rw [xor_length, cw, codeword_length ha (Nat.one_le_of_lt hp), he, min_self]
  obtain ⟨t', ver, err, ok⟩ := exec_ver_of_valid_enc idle' (params.symm ▸ valid) length
  refine ⟨t, t', enc, ver, err, ?_⟩
  rw [ok, cw, mod2rem_codeword_xor ha (Nat.one_le_of_lt hp) he]

end Sys2Proof.Laws
end

section
/-! PROOF. The polynomial reading of the division by a divisor with a leading 1 (49_laws.md R164, R167, R168): quotient and
remainder, their uniqueness, and what the product of two sequences shows of its factors. -/

namespace Sys2Proof.Laws

open Sys2Proof.Machine Sys2Proof.Safety

/-! ### Sequences -/

theorem scale_getD (b : Bool) (v : BitSeq) (i : Nat) : (scale b v).getD i false = (b && v.getD i false) := by
  cases b
  · exact zeros_getD _ i
  · rfl

theorem leadOf_append {s : BitSeq} (hs : 1 ≤ s.length) (t : BitSeq) : leadOf (s ++ t) = leadOf s := by
  obtain ⟨b, s, rfl⟩ := List.exists_cons_of_length_pos hs
  rfl

theorem length_pos_of_lead {v : BitSeq} (h : leadOf v = true) : 1 ≤ v.length := by
  cases v with
  | nil => exact absurd h Bool.false_ne_true
  | cons b v => exact Nat.succ_pos _

/-- XOR with the same sequence can be cancelled. -/
theorem bitXor_left_cancel {s t u : BitSeq} (ht : s.length = t.length) (hu : s.length = u.length)
    (h : BitSeq.xor s t = BitSeq.xor s u) : t = u := by
  have cancel {x : BitSeq} (hx : s.length = x.length) : BitSeq.xor s (BitSeq.xor s x) = x := by
    rw [← bitXor_assoc, bitXor_self, hx, zeros_xor]
  rw [← cancel ht, h, cancel hu]

theorem append_zeros_getD (s : BitSeq) (n i : Nat) : (s ++ BitSeq.zeros n).getD i false = s.getD i false := by
  rcases Nat.lt_or_ge i s.length with below | beyond
  · exact List.getD_append _ _ _ _ below
  · rw [List.getD_append_right _ _ _ _ beyond, zeros_getD, List.getD_eq_default _ _ beyond]

/-! ### The product -/

/-- R167: the highest bit of the first factor adds its copy of the second. -/
theorem clmul_cons (b : Bool) (q v : BitSeq) :
    clmul (b :: q) v = BitSeq.xor (scale b v ++ BitSeq.zeros q.length) (false :: clmul q v) := rfl

theorem clmul_length {v : BitSeq} (hv : 1 ≤ v.length) (q : BitSeq) :
    (clmul q v).length = q.length + (v.length - 1) := by
  induction q with
  | nil => rw [clmul, zeros_length, List.length_nil, Nat.zero_add]
  | cons b q ih =>
    rw [clmul_cons, xor_length, List.length_append, scale_length, zeros_length, List.length_cons, List.length_cons, ih]
    omega

/-- The two summands of the product are equally long. -/
theorem clmul_summands_length {v : BitSeq} (hv : 1 ≤ v.length) (b : Bool) (q : BitSeq) :
    (scale b v ++ BitSeq.zeros q.length).length = (false :: clmul q v).length := by
  rw [List.length_append, scale_length, zeros_length, List.length_cons, clmul_length hv]
  omega

theorem clmul_false_cons {v : BitSeq} (hv : 1 ≤ v.length) (q : BitSeq) :
    clmul (false :: q) v = false :: clmul q v := by
  have length := clmul_summands_length hv false q
  have zero : scale false v ++ BitSeq.zeros q.length = BitSeq.zeros (false :: clmul q v).length := by
    rw [← length, List.length_append, scale_length, zeros_length, ← zeros_append]
    rfl
  rw [clmul_cons, zero, zeros_xor]

theorem clmul_zeros {v : BitSeq} (hv : 1 ≤ v.length) (m : Nat) :
    clmul (BitSeq.zeros m) v = BitSeq.zeros (m + (v.length - 1)) := by
  induction m with
  | zero => rw [Nat.zero_add]; rfl
  | succ m ih => rw [zeros_succ, clmul_false_cons hv, ih, ← zeros_succ, Nat.add_right_comm]

/-- R168: a factor with a single 1 shifts the other factor. -/
theorem clmul_single {v : BitSeq} (hv : 1 ≤ v.length) (i j : Nat) :
    clmul (BitSeq.zeros i ++ true :: BitSeq.zeros j) v = BitSeq.zeros i ++ v ++ BitSeq.zeros j := by
  induction i with
  | zero =>
    have zero : false :: clmul (BitSeq.zeros j) v = BitSeq.zeros (v ++ BitSeq.zeros j).length := by
      rw [clmul_zeros hv, ← zeros_succ, List.length_append, zeros_length]
      congr 1
      omega
    rw [zeros_zero, List.nil_append, List.nil_append, clmul_cons, zeros_length, zero]
    exact xor_zeros _
  | succ i ih => rw [zeros_succ, List.cons_append, clmul_false_cons hv, ih, List.cons_append, List.cons_append]

/-! ### Division with remainder -/

/-- R167: the sequence with quotient `q` and remainder `r` by the divisor `v`. -/
def compose (q v r : BitSeq) : BitSeq := BitSeq.xor (clmul q v) (BitSeq.zeros q.length ++ r)

theorem compose_nil {v r : BitSeq} (hr : r.length = v.length - 1) : compose [] v r = r := by
  rw [compose, clmul, ← hr]
  exact zeros_xor r

/-- R167: the highest quotient bit adds its copy of the divisor to a sequence that begins with 0. -/
theorem compose_cons (b : Bool) (q v r : BitSeq) :
    compose (b :: q) v r = BitSeq.xor (scale b v ++ BitSeq.zeros q.length) (false :: compose q v r) := by
  rw [compose, clmul_cons, bitXor_assoc]
  rfl

theorem compose_length {v r : BitSeq} (hv : 1 ≤ v.length) (hr : r.length = v.length - 1) (q : BitSeq) :
    (compose q v r).length = q.length + (v.length - 1) := by
  rw [compose, xor_length, clmul_length hv, List.length_append, zeros_length, hr, min_self]

theorem compose_summands_length {v r : BitSeq} (hv : 1 ≤ v.length) (hr : r.length = v.length - 1) (b : Bool)
    (q : BitSeq) : (scale b v ++ BitSeq.zeros q.length).length = (false :: compose q v r).length := by
  rw [clmul_summands_length hv b q, List.length_cons, List.length_cons, clmul_length hv, compose_length hv hr]

section LeadingOne

variable {v : BitSeq} (lead : leadOf v = true)
include lead

/-- R167: with a leading 1 in the divisor, the highest bit shows the highest quotient bit. -/
theorem leadOf_compose_cons {r : BitSeq} (hr : r.length = v.length - 1) (b : Bool) (q : BitSeq) :
    leadOf (compose (b :: q) v r) = b := by
  have hv := length_pos_of_lead lead
  have scaled : leadOf (scale b v) = b := by
    rw [leadOf_eq_getD, scale_getD, ← leadOf_eq_getD, lead, Bool.and_true]
  rw [compose_cons, leadOf_xor (compose_summands_length hv hr b q), leadOf_append (scale_length b v ▸ hv), scaled,
    leadOf_cons, Bool.xor_false]

/-- R167: the quotient bits can be read off one by one from the highest on, and the remainder is what is left. -/
theorem compose_injective {r r' : BitSeq} (hr : r.length = v.length - 1) (hr' : r'.length = v.length - 1) (q : BitSeq) :
    ∀ {q' : BitSeq}, q.length = q'.length → compose q v r = compose q' v r' → q = q' ∧ r = r' := by
  have hv := length_pos_of_lead lead
  induction q with
  | nil =>
    intro q' hq h
    obtain rfl := List.eq_nil_of_length_eq_zero hq.symm
    rw [compose_nil hr, compose_nil hr'] at h
    exact ⟨rfl, h⟩
  | cons b q ih =>
    intro q' hq h
    obtain ⟨b', q', rfl⟩ := List.exists_cons_of_length_eq_add_one hq.symm
    have len : q.length = q'.length := Nat.succ.inj hq
    obtain rfl : b = b' := by
      rw [← leadOf_compose_cons lead hr b q, h, leadOf_compose_cons lead hr']
    rw [compose_cons, compose_cons, ← len] at h
    have tails := bitXor_left_cancel (compose_summands_length hv hr b q)
      (len ▸ compose_summands_length hv hr' b q') h
    obtain ⟨rfl, rfl⟩ := ih len (List.cons.inj tails).2
    exact ⟨rfl, rfl⟩

/-- R167: a conditional XOR clears the leading bit, so the bit the window drops next is 0. -/
theorem condxor_eq_false_cons {w : BitSeq} (hw : w.length = v.length) :
    condxor w v = false :: (condxor w v).drop 1 := by
  have hv := length_pos_of_lead lead
  obtain ⟨b, u, eq⟩ := List.exists_cons_of_length_pos ((condxor_length hw).symm ▸ hv)
  have cleared : leadOf (condxor w v) = false := by
    rw [leadOf_eq_getD, condxor_getD hw, ← leadOf_eq_getD, ← leadOf_eq_getD, lead]
    cases leadOf w <;> rfl
  rw [eq] at cleared ⊢
  obtain rfl : b = false := cleared
  rfl

/-- R167: what one test subtracts is the tested bit times the divisor, at the window's place. -/
theorem append_eq_xor_scale {w : BitSeq} (rest : BitSeq) (hw : w.length = v.length) :
    w ++ rest =
      BitSeq.xor (scale (leadOf w) v ++ BitSeq.zeros rest.length) (false :: ((condxor w v).drop 1 ++ rest)) := by
  have back : BitSeq.xor (scale (leadOf w) v) (condxor w v) = w := by
    rw [condxor_eq_xor_scale hw, bitXor_comm w, ← bitXor_assoc, bitXor_self, scale_length, ← hw, zeros_xor]
  rw [← List.cons_append, ← condxor_eq_false_cons lead hw,
    xor_append _ _ ((scale_length _ v).trans (condxor_length hw).symm), back, zeros_xor]

/-- R167: the loop of R92 from any window on divides the window and the bits still to come. -/
theorem append_eq_compose (rest : BitSeq) : ∀ {w : BitSeq}, w.length = v.length →
    w ++ rest = compose (leadBits v w rest) v ((condxor (slide v w rest) v).drop 1) := by
  have hv := length_pos_of_lead lead
  induction rest with
  | nil =>
    intro w hw
    have last : ((condxor w v).drop 1).length = v.length - 1 := by rw [List.length_drop, condxor_length hw]
    rw [leadBits, slide, compose_cons, compose_nil last, append_eq_xor_scale lead [] hw, List.append_nil]
  | cons b rest ih =>
    intro w hw
    rw [leadBits, slide, compose_cons, leadBits_length, ← ih (shiftin_condxor_length b hv hw),
      append_eq_xor_scale lead _ hw, shiftin, List.append_assoc]
    rfl

/-- R167: the tested bits are the quotient. -/
theorem eq_compose_testedBits {d : BitSeq} (h : v.length ≤ d.length) :
    d = compose (testedBits d v) v (mod2rem d v) := by
  have divided := append_eq_compose lead (d.drop v.length) (List.length_take_of_le h)
  rw [List.take_append_drop] at divided
  exact divided

/-- R167: a quotient and a remainder of the right lengths are the tested bits and `mod2rem`. -/
theorem eq_of_eq_compose {d q r : BitSeq} (h : v.length ≤ d.length) (hq : q.length = d.length - v.length + 1)
    (hr : r.length = v.length - 1) (eq : d = compose q v r) : q = testedBits d v ∧ r = mod2rem d v :=
  compose_injective lead hr (mod2rem_length (length_pos_of_lead lead) h) q (hq.trans (testedBits_length d v).symm)
    (eq.symm.trans (eq_compose_testedBits lead h))

end LeadingOne

/-- Settles O57: the tested bits and `mod2rem` compose the dividend, and composition is injective. -/
theorem divisionIsPolynomialDivision : Obligations.DivisionIsPolynomialDivision := by
  intro d v lead h
  rw [← leadOf_eq_getD] at lead
  rw [← testedBits_length d v]
  refine ⟨eq_compose_testedBits lead h, fun q r hq hr eq => ?_⟩
  rw [← hq] at eq
  exact eq_of_eq_compose lead h (hq.trans (testedBits_length d v)) hr eq

/-- R167: a product of the right length has the zero remainder. -/
theorem compose_zeros {v : BitSeq} (hv : 1 ≤ v.length) (q : BitSeq) :
    compose q v (BitSeq.zeros (v.length - 1)) = clmul q v := by
  rw [compose, zeros_append, ← clmul_length hv, xor_zeros]

/-- Settles O55: a shifted copy is the product with a quotient that has a single 1, and its remainder is unique. -/
theorem shiftedPolynomialIsUndetectable : Obligations.ShiftedPolynomialIsUndetectable := by
  intro p i j lead
  rw [← leadOf_eq_getD] at lead
  have hp := length_pos_of_lead lead
  have length : (BitSeq.zeros i ++ p ++ BitSeq.zeros j).length = i + p.length + j := by
    rw [List.length_append, List.length_append, zeros_length, zeros_length]
  have q_length : (BitSeq.zeros i ++ true :: BitSeq.zeros j).length = i + p.length + j - p.length + 1 := by
    rw [List.length_append, List.length_cons, zeros_length, zeros_length]
    omega
  obtain ⟨-, rem⟩ := eq_of_eq_compose lead (by omega) (q_length.trans (by rw [length]))
    (zeros_length _) ((compose_zeros hp _).trans (clmul_single hp i j)).symm
  exact rem.symm

/-! ### The ones of a product -/

theorem clmul_cons_getD_zero {v : BitSeq} (hv : 1 ≤ v.length) (b : Bool) (q : BitSeq) :
    (clmul (b :: q) v).getD 0 false = (b && v.getD 0 false) := by
  have below : 0 < (scale b v).length := (scale_length b v).symm ▸ hv
  rw [clmul_cons, xor_getD (clmul_summands_length hv b q), List.getD_append _ _ _ _ below, scale_getD]
  exact Bool.xor_false _

theorem clmul_cons_getD_succ {v : BitSeq} (hv : 1 ≤ v.length) (b : Bool) (q : BitSeq) (i : Nat) :
    (clmul (b :: q) v).getD (i + 1) false = Bool.xor (b && v.getD (i + 1) false) ((clmul q v).getD i false) := by
  rw [clmul_cons, xor_getD (clmul_summands_length hv b q), append_zeros_getD, scale_getD, List.getD_cons_succ]

/-- A sequence without a 1 is all zero. -/
theorem eq_zeros_of_not_mem {q : BitSeq} (h : true ∉ q) : q = BitSeq.zeros q.length :=
  List.eq_replicate_iff.mpr ⟨rfl, fun _ hb => Bool.eq_false_iff.mpr fun one => h (one ▸ hb)⟩

/-- A sequence with a 1 has a last one. -/
theorem exists_last_one {v : BitSeq} {j : Nat} (h : v.getD j false = true) :
    ∃ u, j ≤ u ∧ v.getD u false = true ∧ ∀ i, u < i → v.getD i false = false := by
  have beyond {i : Nat} (hi : v.length ≤ i) : v.getD i false = false := List.getD_eq_default _ _ hi
  have hj : j ≤ v.length := by
    by_contra far
    exact Bool.false_ne_true ((beyond (Nat.le_of_not_le far)).symm.trans h)
  refine ⟨_, Nat.le_findGreatest hj h, Nat.findGreatest_spec (P := fun i => v.getD i false = true) hj h, fun i hi => ?_⟩
  rcases Nat.le_total v.length i with far | near
  · exact beyond far
  · exact Bool.eq_false_iff.mpr (Nat.findGreatest_is_greatest hi near)

section LastOne

variable {v : BitSeq} {u : Nat} (pos : 0 < u) (last : v.getD u false = true)
  (above : ∀ i, u < i → v.getD i false = false)
include pos last above

/-- R164: a product has a 1 at the last 1 of `v` or after it, where the last copy of `v` ends. -/
theorem clmul_getD_of_last_one (hv : 1 ≤ v.length) {q : BitSeq} (one : true ∈ q) :
    ∃ j, u ≤ j ∧ (clmul q v).getD j false = true := by
  induction q with
  | nil => exact absurd one List.not_mem_nil
  | cons b q ih =>
    by_cases further : true ∈ q
    · obtain ⟨j, le, bit⟩ := ih further
      refine ⟨j + 1, Nat.le_succ_of_le le, ?_⟩
      rw [clmul_cons_getD_succ hv, above _ (Nat.lt_succ_of_le le), Bool.and_false, bit, Bool.false_xor]
    · obtain rfl := (List.mem_cons.mp one).resolve_right further
      obtain ⟨u, rfl⟩ := Nat.exists_eq_add_one.mpr pos
      refine ⟨u + 1, le_rfl, ?_⟩
      rw [clmul_cons_getD_succ hv, last, eq_zeros_of_not_mem further, clmul_zeros hv, zeros_getD]
      rfl

/-- R164: the product with a sequence that has a leading 1 and a further one has two ones itself. -/
theorem clmul_has_two_ones (lead : leadOf v = true) {q : BitSeq} (one : true ∈ q) :
    ∃ i j, i < j ∧ (clmul q v).getD i false = true ∧ (clmul q v).getD j false = true := by
  have hv := length_pos_of_lead lead
  induction q with
  | nil => exact absurd one List.not_mem_nil
  | cons b q ih =>
    cases b with
    | true =>
      obtain ⟨j, le, bit⟩ := clmul_getD_of_last_one pos last above hv one
      refine ⟨0, j, by omega, ?_, bit⟩
      rw [clmul_cons_getD_zero hv, ← leadOf_eq_getD, lead, Bool.true_and]
    | false =>
      obtain ⟨i, j, lt, bit, bit'⟩ := ih ((List.mem_cons.mp one).resolve_left Bool.noConfusion)
      refine ⟨i + 1, j + 1, Nat.succ_lt_succ lt, ?_⟩
      rw [clmul_false_cons hv, List.getD_cons_succ, List.getD_cons_succ]
      exact ⟨bit, bit'⟩

end LastOne

theorem oneHot_length (n i : Nat) : (oneHot n i).length = n := by
  rw [oneHot, List.length_map, List.length_range]

theorem oneHot_getD_eq_true_iff {n i j : Nat} : (oneHot n i).getD j false = true ↔ j < n ∧ j = i := by
  rcases Nat.lt_or_ge j n with below | beyond
  · rw [List.getD_eq_getElem _ _ (by rwa [oneHot_length])]
    simp [oneHot, below]
  · rw [List.getD_eq_default _ _ (by rwa [oneHot_length])]
    simp [beyond.not_gt]

/-- Settles O56: with a zero remainder the pattern is a product, which has no 1 or two. -/
theorem singleFlipIsDetectedByTwoTermPolynomials : Obligations.SingleFlipIsDetectedByTwoTermPolynomials := by
  rintro p n i lead ⟨j, j_pos, second⟩ le hi
  rw [← leadOf_eq_getD] at lead
  have hp := length_pos_of_lead lead
  have le' : p.length ≤ (oneHot n i).length := (oneHot_length n i).symm ▸ le
  refine Bool.eq_false_iff.mpr fun zero => ?_
  rw [allZero_iff, mod2rem_length hp le'] at zero
  have product : oneHot n i = clmul (testedBits (oneHot n i) p) p := by
    rw [← compose_zeros hp, ← zero]
    exact eq_compose_testedBits lead le'
  by_cases one : true ∈ testedBits (oneHot n i) p
  · obtain ⟨u, le_u, last, above⟩ := exists_last_one second
    obtain ⟨k, l, lt, bit, bit'⟩ := clmul_has_two_ones (j_pos.trans_le le_u) last above lead one
    rw [← product, oneHot_getD_eq_true_iff] at bit bit'
    omega
  · have bit := oneHot_getD_eq_true_iff.mpr ⟨hi, rfl⟩
    rw [product, eq_zeros_of_not_mem one, clmul_zeros hp, zeros_getD] at bit
    exact Bool.false_ne_true bit

end Sys2Proof.Laws
end

section
/-! PROOF. The two faults (60_exceptions.md R181, R182, R185, R187): which requests get which, and the state
a fault leaves. -/

namespace Sys2Proof.Laws

open Sys2Proof.Machine Sys2Proof.Safety

/-- R142, R181: the first two tests of the check are R181's table. -/
theorem checkInstr_eq_invalid_iff {c : Config.Params} {i : Instr} :
    checkInstr c i = some .invalidInputLength ↔ InvalidLength i := by
  rw [checkInstr, check_eq_some_iff, ← not_iff_not, not_invalidLength_iff]
  simp only [reduceCtorEq, and_false, or_false, and_true]
  omega

/-- R142, R182: the last test of the check is reached past R181's table and is R182's condition. -/
theorem checkInstr_eq_capacity_iff {c : Config.Params} {i : Instr} :
    checkInstr c i = some .capacityExceeded ↔ OverCapacity c i := by
  rw [checkInstr, check_eq_some_iff, OverCapacity, not_invalidLength_iff, requestLen_eq_viewLen, exceedsCapacity_eq_true]
  simp only [reduceCtorEq, and_false, false_or, and_true, and_assoc]

/-- R182: nothing is over an unbounded capacity. -/
theorem not_overCapacity_of_unbounded {c : Config.Params} (hN : c.maxN = .unbounded) (hK : c.maxK = .unbounded)
    (i : Instr) : ¬ OverCapacity c i := by
  simp [OverCapacity, hN, hK, Config.Capacity.exceededBy]

/-- R185: the check reads the operation and the two lengths alone. -/
theorem checkInstr_congr {i j : Instr} (c : Config.Params) (op : i.op = j.op) (a : i.a.length = j.a.length)
    (p : i.p.length = j.p.length) : checkInstr c i = checkInstr c j := by
  rw [checkInstr, checkInstr, op, a, p]

/-- R73: a code stands for one fault, and the code of no fault for none. -/
theorem elim_faultCode_eq_iff {o : Option ReqFault} {e : ReqFault} :
    o.elim noFault faultCode = faultCode e ↔ o = some e := by
  cases o with
  | none => exact iff_of_false (faultCode_ne_noFault e).symm (by simp)
  | some e' => cases e <;> cases e' <;> decide

/-- R141, R187: `exec` answers every request in `IDLE` and reports what the check says, in the code of R73. -/
theorem exec_reports_check (i : Instr) {s : State} (idle : s.phase = .idle) :
    ∃ t, exec i s = .next t ∧ t.phase = .done ∧ t.err = (checkInstr s.params i).elim noFault faultCode := by
  obtain ⟨e, check, h⟩ | ⟨check, h⟩ := exec_cases i idle <;> rw [check]
  · exact ⟨_, h, rfl, rfl⟩
  · exact ⟨_, h, rfl, storeResult_err _ _⟩

/-- R187: `exec` reports a fault exactly when the check finds it. -/
theorem exec_err_iff (i : Instr) {s : State} (idle : s.phase = .idle) :
    ∃ t, exec i s = .next t ∧ ∀ e, t.err = faultCode e ↔ checkInstr s.params i = some e := by
  obtain ⟨t, h, -, err⟩ := exec_reports_check i idle
  exact ⟨t, h, fun e => by rw [err, elim_faultCode_eq_iff]⟩

/-- Settles O14: the check finds InvalidInputLength on R181's table, and fault entry is the record update. -/
theorem invalidInputLengthIsRaisedExactlyByTheTable : Obligations.InvalidInputLengthIsRaisedExactlyByTheTable := by
  intro i s idle
  obtain ⟨t, h, reports⟩ := exec_err_iff i idle
  refine ⟨t, h, (reports .invalidInputLength).trans checkInstr_eq_invalid_iff, fun invalid => ?_⟩
  cases h.symm.trans (exec_of_fault idle (checkInstr_eq_invalid_iff.mpr invalid))
  rfl

/-- Settles O15: the check finds CapacityExceeded on R182's condition, which no request meets when nothing is bounded. -/
theorem capacityExceededIsRaisedExactlyByOverCapacity :
    Obligations.CapacityExceededIsRaisedExactlyByOverCapacity := by
  intro i s idle
  obtain ⟨t, h, reports⟩ := exec_err_iff i idle
  have reports_capacity : t.err = 0b10#2 ↔ OverCapacity s.params i :=
    (reports .capacityExceeded).trans checkInstr_eq_capacity_iff
  exact ⟨t, h, reports_capacity, fun hN hK => mt reports_capacity.mp (not_overCapacity_of_unbounded hN hK i)⟩

/-- Settles O17: both requests report what the check says, and it says the same of both. -/
theorem faultDependsOnLengthsAlone : Obligations.FaultDependsOnLengthsAlone := by
  intro i j s idle op a p
  obtain ⟨t, ht, done, err⟩ := exec_reports_check i idle
  obtain ⟨u, hu, done', err'⟩ := exec_reports_check j idle
  refine ⟨t, u, ht, hu, ?_, done.trans done'.symm⟩
  rw [err, err', checkInstr_congr s.params op a p]

/-- Settles O16: `exec` and SUBMIT both latch and take the fault, and the response left is the
answer to the latched request. -/
theorem faultEntryLatchesTheRequestAndWritesTheErrorResponse :
    Obligations.FaultEntryLatchesTheRequestAndWritesTheErrorResponse := by
  intro i s e idle check
  rw [exec_of_fault idle check, submit_of_fault check]
  refine ⟨rfl, rfl, ?_⟩
  rw [doneInv_response (takeFault_doneInv check), takeFault_latched, takeFault_params, latch_params,
    transact_of_fault check]

end Sys2Proof.Laws
end

section
/-! PROOF. RESET, and the block while the host asks for nothing it can take (70_reset_and_hazards.md R210, R211, R216,
R218). -/

namespace Sys2Proof.Laws

open Sys2Proof.Machine Sys2Proof.Safety

/-- Settles O24: the step is RESET, which leaves `IDLE`. -/
theorem resetLeavesIdleAndDeliversNothing : Obligations.ResetLeavesIdleAndDeliversNothing := by
  intro s rst
  have reset := step_of_reset rst
  refine ⟨reset, fun t h => ?_⟩
  cases reset.symm.trans h
  exact ⟨rfl, fun _ => rfl⟩

/-- Settles O42: RESET leaves an `IDLE` block, and no state crosses from it into what follows (R31). -/
theorem resetForgetsTheAbandonedTransaction : Obligations.ResetForgetsTheAbandonedTransaction := by
  intro s u n rst idle params script
  obtain ⟨t, v, new, ht, hv, phase, -, -, -, delivered, delivered'⟩ :=
    noStateCrossesATransaction s.tick.hardReset u n rfl idle params script
  exact ⟨t, v, new, (run_succ n (step_of_reset rst)).trans ht, hv, phase.symm, delivered, delivered'⟩

/-- R216: outside `IDLE` a step reads of the drive no level but `rst` and `rsp_ready`. -/
theorem step_of_busy {s : State} (busy : s.phase ≠ .idle) :
    step s =
      if s.drive.rst then .next s.tick.hardReset
      else if s.phase = .run then blockStep s.tick
      else if s.drive.rspReady then .next s.tick.collect else .next s.tick := by
  rw [step_eq]
  cases phase : s.phase with
  | idle => exact absurd phase busy
  | run => rfl
  | done => rfl

/-- Settles O13: outside `IDLE` neither `exec` nor the step reads the request; in `IDLE` without one the step is a wait. -/
theorem requestWhileBusyIsNotTaken : Obligations.RequestWhileBusyIsNotTaken := by
  refine fun s => ⟨fun busy => ⟨exec_busy busy, fun d rest valid q => ?_⟩, step_of_no_request⟩
  have unseen (script : List Drive) := step_of_busy (s := { s with script }) busy
  rw [unseen, unseen]
  rfl

/-- R150, R218: where drives of one kind, all low among them, make a step of one phase a wait, the block waits as long as
the host drives nothing else. -/
theorem run_of_waits {phase : Phase} {quiet : Drive → Prop} (low : quiet Drive.low)
    (waits : ∀ s : State, s.phase = phase → quiet s.drive → step s = .next s.tick) (n : Nat) :
    ∀ {s : State}, s.phase = phase → (∀ d ∈ s.script.take n, quiet d) →
      Sys2Proof.core.run n s = .next (later n s) := by
  induction n with
  | zero => exact fun _ _ => rfl
  | succ n ih =>
    intro s here drives
    obtain ⟨now, afterwards⟩ := drive_and_tail drives low
    rw [run_succ n (waits s here now), ih (s := s.tick) here afterwards, ← later_one, later_later, Nat.add_comm]

/-- Settles O25: a step of `DONE` without `rsp_ready` and one of `IDLE` without `req_valid` are waits. -/
theorem blockWaitsForTheHostWithoutChange : Obligations.BlockWaitsForTheHostWithoutChange := by
  refine fun n s => ⟨?_, ?_⟩
  · exact run_of_waits ⟨rfl, rfl⟩ (fun _ done ⟨rst, ready⟩ => step_of_hold done rst ready) n
  · exact run_of_waits ⟨rfl, rfl⟩ (fun _ idle ⟨rst, valid⟩ => step_of_no_request idle rst valid) n

end Sys2Proof.Laws
end
